-- ==== Sys2Proof/Word.lean ====
section
/-! DEFINITION. The machine's one word: every register, immediate, opcode and branch target is 8 bits (R7, R38). -/

namespace Sys2Proof

/-- An 8-bit unsigned value 0..255, bit 0 the least significant (R6, R7). Arithmetic on it is modulo 256 (R8). -/
abbrev Byte := BitVec 8

end Sys2Proof
end

