-- ==== Sys2Proof/Config.lean ====
section
/-! DEFINITION. The behaviours the spec lets a model take as parameters (R5, 93 Part 1). The values of the machine this
spec describes are `machineConfig` in Decode.lean. PROG_CAPACITY has no field: its default is "unbounded", and the spec
gives no error for a program that is too long (log 14). -/

namespace Sys2Proof

/-- SHIFT_POLICY (R5, D10, I1): what a shift amount of 8 or more means. -/
inductive ShiftPolicy where
  /-- The amount is taken modulo 8 (the spec's default, R81). -/
  | mod8
  /-- The whole amount is used, so that 8 or more shifts every bit out. -/
  | saturateToZero
deriving DecidableEq, Repr

/-- The parameters of R5 that have an effect. -/
structure Config where
  /-- SHIFT_POLICY (D10). -/
  shiftPolicy : ShiftPolicy
  /-- BRANCH_DISPATCH_MASK (D6): the bits of a branch-form opcode that select the branch kind. -/
  branchDispatchMask : Byte
  /-- PC_WRITE_INCREMENTS (D12): whether the default increment follows a non-branch write of PC. -/
  pcWriteIncrements : Bool
deriving DecidableEq, Repr

end Sys2Proof
end

