-- ==== Sys2Proof/Syntax.lean ====
section
/-! DEFINITION. Registers, records, decode errors and the 23 instructions, as syntax. -/

namespace Sys2Proof

/-- The closed set of 16 registers (R10). Their address codes are `Reg.code` in Decode.lean. -/
inductive Reg where
  | r0 | r1 | r2 | r3 | r4 | r5 | r6 | r7
  | ba | bb
  | d0 | d1 | d2 | d3
  | pc
  | cr
deriving DecidableEq, Repr

/-- The three operand forms of a record (R50, R52). -/
inductive Form where
  /-- `a` and `b` are register codes. -/
  | rr
  /-- `a` is a register code, `b` an immediate. -/
  | ri
  /-- `a` is the jump target, `b` is ignored. -/
  | branch
deriving DecidableEq, Repr

/-- One 3-byte record of the program byte stream, before decoding (R50). -/
structure Record where
  op : Byte
  a : Byte
  b : Byte
deriving DecidableEq, Repr

/-- The five decode errors with their payloads (R131). Only a load raises them. -/
inductive DecodeError where
  | invalidProgram
  | invalidRegisterAddress (byte : Byte)
  | invalidBranchOpCode (op : Byte)
  | invalidSrcValueOpCode (op : Byte)
  | invalidOpCode (op : Byte)
deriving DecidableEq, Repr

/-- A decoded instruction (R69): one constructor per row of the opcode table, registers already validated (a `Reg` is one of
the 16 by its type), a branch without its byte `b`. -/
inductive Instr where
  | add (t s : Reg)
  | addv (t : Reg) (imm : Byte)
  | sub (t s : Reg)
  | subv (t : Reg) (imm : Byte)
  | lsh (t s : Reg)
  | lshv (t : Reg) (imm : Byte)
  | rsh (t s : Reg)
  | rshv (t : Reg) (imm : Byte)
  | and (t s : Reg)
  | andv (t : Reg) (imm : Byte)
  | or (t s : Reg)
  | orv (t : Reg) (imm : Byte)
  | xor (t s : Reg)
  | xorv (t : Reg) (imm : Byte)
  | cmp (t s : Reg)
  | cmpv (t : Reg) (imm : Byte)
  | mov (t s : Reg)
  | movv (t : Reg) (imm : Byte)
  | br (target : Byte)
  | be (target : Byte)
  | bne (target : Byte)
  | bg (target : Byte)
  | bl (target : Byte)
deriving DecidableEq, Repr

end Sys2Proof
end

