-- ==== Sys2Proof/WellFormed.lean ====
section
/-! DEFINITION. The checks a program passes before it may run, written as the spec's lists, apart from the decoder: the
decoder is claimed to accept exactly what these accept. A decoded `Instr` needs no check of its own: it is "validated at
construction" (R69), its registers being one of the 16 by type and every immediate and target being legal (R53, R54). -/

namespace Sys2Proof

/-- The 16 register codes (R10). -/
def regCodes : List Byte :=
  [0x00, 0x01, 0x02, 0x03, 0x04, 0x05, 0x06, 0x07, 0x10, 0x11, 0x12, 0x13, 0x14, 0x15, 0x16, 0x17]

/-- The nine rr-form opcodes (R57). -/
def rrOpcodes : List Byte := [0x10, 0x12, 0x20, 0x22, 0x30, 0x32, 0x34, 0x40, 0x60]

/-- The nine ri-form opcodes (R58). -/
def riOpcodes : List Byte := [0x11, 0x13, 0x21, 0x23, 0x31, 0x33, 0x35, 0x41, 0x61]

/-- The five branch-form opcodes (R59). -/
def branchOpcodes : List Byte := [0x50, 0x52, 0x54, 0x56, 0x58]

/-- A record that decodes (R64, R65, R66): a listed opcode whose register-bearing bytes (R56) are register codes. -/
def Record.wellFormed (r : Record) : Bool :=
  branchOpcodes.contains r.op
    || (riOpcodes.contains r.op && regCodes.contains r.a)
    || (rrOpcodes.contains r.op && regCodes.contains r.a && regCodes.contains r.b)

/-- A byte stream of a legal length: a positive multiple of 3 (R39). -/
def streamLengthOk (bytes : List Byte) : Bool := bytes.length != 0 && bytes.length % 3 == 0

/-- A program the store may hold: at least one instruction (R23). -/
def programOk (prog : List Instr) : Bool := !prog.isEmpty

end Sys2Proof
end

