-- ==== Sys2Proof/Decode.lean ====
section
/-! DEFINITION. The instruction decoder (R50 to R66), the encoder (R70), and the error codes (R131). The parameter values of
the machine stand here, before their first use. -/

namespace Sys2Proof

/-- The machine the spec describes: R5's four parameters at their defaults (D6, D10, D12; log 4, 6, 7). -/
def machineConfig : Config :=
  { shiftPolicy := .mod8, branchDispatchMask := 0xFF, pcWriteIncrements := true }

/-! ### Register codes -/

/-- The address code of a register (R10). -/
def Reg.code : Reg → Byte
  | .r0 => 0x00 | .r1 => 0x01 | .r2 => 0x02 | .r3 => 0x03
  | .r4 => 0x04 | .r5 => 0x05 | .r6 => 0x06 | .r7 => 0x07
  | .ba => 0x10 | .bb => 0x11
  | .d0 => 0x12 | .d1 => 0x13 | .d2 => 0x14 | .d3 => 0x15
  | .pc => 0x16 | .cr => 0x17

/-- Every register, in the order of R10's table. -/
def Reg.all : List Reg :=
  [.r0, .r1, .r2, .r3, .r4, .r5, .r6, .r7, .ba, .bb, .d0, .d1, .d2, .d3, .pc, .cr]

/-- The register a byte names: exact-match lookup in the closed set, no fallback (R11). -/
def Reg.ofCode (byte : Byte) : Option Reg := Reg.all.find? fun r => r.code == byte

/-! ### One record -/

/-- The form of a record, from its opcode alone; the branch test comes first (R52, C1, C6). -/
def formOf (op : Byte) : Form :=
  if op &&& 0x50 = 0x50 then .branch else if op &&& 0x01 = 0x01 then .ri else .rr

/-- The rr-form opcodes and the instructions they select (R57). -/
def rrTable : List (Byte × (Reg → Reg → Instr)) :=
  [(0x10, .add), (0x12, .sub), (0x20, .lsh), (0x22, .rsh), (0x30, .and), (0x32, .or), (0x34, .xor),
   (0x40, .cmp), (0x60, .mov)]

/-- The ri-form opcodes and the instructions they select (R58). -/
def riTable : List (Byte × (Reg → Byte → Instr)) :=
  [(0x11, .addv), (0x13, .subv), (0x21, .lshv), (0x23, .rshv), (0x31, .andv), (0x33, .orv), (0x35, .xorv),
   (0x41, .cmpv), (0x61, .movv)]

/-- The branch-form opcodes and the instructions they select (R59). -/
def branchTable : List (Byte × (Byte → Instr)) :=
  [(0x50, .br), (0x52, .be), (0x54, .bne), (0x56, .bg), (0x58, .bl)]

/-- The first row of a table whose opcode equals `op` on the bits of `mask`. -/
def dispatchOn {α : Type} (mask op : Byte) : List (Byte × α) → Option α
  | [] => none
  | (code, row) :: rest => if op &&& mask = code &&& mask then some row else dispatchOn mask op rest

/-- `DecodeRecord` (R61): the form, then the register checks (`a` before `b`, D8), then the dispatch on the opcode byte:
on every bit in rr and ri form (R60, D7), on the bits of `c.branchDispatchMask` in branch form (D6). -/
def decodeRecordWith (c : Config) (r : Record) : Except DecodeError Instr :=
  match formOf r.op with
  | .branch =>
    match dispatchOn c.branchDispatchMask r.op branchTable with
    | some make => .ok (make r.a)
    | none => .error (.invalidBranchOpCode r.op)
  | .ri =>
    match Reg.ofCode r.a with
    | none => .error (.invalidRegisterAddress r.a)
    | some t =>
      match dispatchOn 0xFF r.op riTable with
      | some make => .ok (make t r.b)
      | none => .error (.invalidSrcValueOpCode r.op)
  | .rr =>
    match Reg.ofCode r.a, Reg.ofCode r.b with
    | none, _ => .error (.invalidRegisterAddress r.a)
    | some _, none => .error (.invalidRegisterAddress r.b)
    | some t, some s =>
      match dispatchOn 0xFF r.op rrTable with
      | some make => .ok (make t s)
      | none => .error (.invalidOpCode r.op)

/-- `DecodeRecord` of the machine the spec describes (R61). -/
def decodeRecord (r : Record) : Except DecodeError Instr := decodeRecordWith machineConfig r

/-! ### A whole stream -/

/-- The records of a stream decoded in index order; the first one that raises ends the decoding (R62, D9). The last
arm, a stream that ends inside a record, is shut out by the length check of `decodeStream`. -/
def decodeRecords : List Byte → Except DecodeError (List Instr)
  | [] => .ok []
  | op :: a :: b :: rest =>
    match decodeRecord { op := op, a := a, b := b } with
    | .error e => .error e
    | .ok i =>
      match decodeRecords rest with
      | .error e => .error e
      | .ok prog => .ok (i :: prog)
  | _ => .error .invalidProgram

/-- The decoding part of `Load` (R62): the length check first (R132), then the records. A pure function of the bytes (R63). -/
def decodeStream (bytes : List Byte) : Except DecodeError (List Instr) :=
  if streamLengthOk bytes then decodeRecords bytes else .error .invalidProgram

/-! ### Error codes -/

/-- The `err_code` of a decode error (R131, D4); 0 stands for no error and 6 and 7 are never produced. -/
def DecodeError.code : DecodeError → BitVec 3
  | .invalidProgram => 1
  | .invalidRegisterAddress _ => 2
  | .invalidBranchOpCode _ => 3
  | .invalidSrcValueOpCode _ => 4
  | .invalidOpCode _ => 5

/-- The `err_byte` of a decode error (R131, D5): the offending byte, 0x00 for `InvalidProgram`. -/
def DecodeError.payload : DecodeError → Byte
  | .invalidProgram => 0x00
  | .invalidRegisterAddress byte => byte
  | .invalidBranchOpCode op => op
  | .invalidSrcValueOpCode op => op
  | .invalidOpCode op => op

/-! ### The encoder -/

/-- A record of rr form. -/
def encodeRr (op : Byte) (t s : Reg) : Record := { op := op, a := t.code, b := s.code }

/-- A record of ri form. -/
def encodeRi (op : Byte) (t : Reg) (imm : Byte) : Record := { op := op, a := t.code, b := imm }

/-- A record of branch form; its ignored byte is written 0x00 (R70, D28; log 19). -/
def encodeBranch (op target : Byte) : Record := { op := op, a := target, b := 0x00 }

/-- The record of an instruction (R57 to R59, R70). -/
def encode : Instr → Record
  | .add t s => encodeRr 0x10 t s
  | .addv t imm => encodeRi 0x11 t imm
  | .sub t s => encodeRr 0x12 t s
  | .subv t imm => encodeRi 0x13 t imm
  | .lsh t s => encodeRr 0x20 t s
  | .lshv t imm => encodeRi 0x21 t imm
  | .rsh t s => encodeRr 0x22 t s
  | .rshv t imm => encodeRi 0x23 t imm
  | .and t s => encodeRr 0x30 t s
  | .andv t imm => encodeRi 0x31 t imm
  | .or t s => encodeRr 0x32 t s
  | .orv t imm => encodeRi 0x33 t imm
  | .xor t s => encodeRr 0x34 t s
  | .xorv t imm => encodeRi 0x35 t imm
  | .cmp t s => encodeRr 0x40 t s
  | .cmpv t imm => encodeRi 0x41 t imm
  | .mov t s => encodeRr 0x60 t s
  | .movv t imm => encodeRi 0x61 t imm
  | .br target => encodeBranch 0x50 target
  | .be target => encodeBranch 0x52 target
  | .bne target => encodeBranch 0x54 target
  | .bg target => encodeBranch 0x56 target
  | .bl target => encodeBranch 0x58 target

/-- The three bytes of a record in stream order: opcode, `a`, `b` (R38, R50). -/
def Record.bytes (r : Record) : List Byte := [r.op, r.a, r.b]

/-- The byte stream of a program: its records in index order (R51). -/
def encodeProgram : List Instr → List Byte
  | [] => []
  | i :: prog => (encode i).bytes ++ encodeProgram prog

/-! ### Words of the opcode table -/

/-- The `n` low bytes of a number, least significant first. -/
def lowBytes : Nat → Nat → List Byte
  | 0, _ => []
  | n + 1, w => BitVec.ofNat 8 w :: lowBytes n (w / 256)

/-- The byte stream of a word of `nbits` bits numbered as the opcode table numbers them: byte 0 (the opcode) is bits 7..0,
byte 1 bits 15..8, byte 2 bits 23..16; bits above `nbits` are 0. A word wider than one record gives a longer stream. -/
def tableWordBytes (nbits w : Nat) : List Byte := lowBytes (max 3 ((nbits + 7) / 8)) (w % 2 ^ nbits)

/-- The decoding of a table word as a one-record stream (R62). -/
def decodeTableStream (nbits w : Nat) : Except DecodeError Instr :=
  match decodeStream (tableWordBytes nbits w) with
  | .ok [i] => .ok i
  | .ok _ => .error .invalidProgram
  | .error e => .error e

/-- The instruction the decoder reads from a table word; none where it refuses. -/
def decodeTableWord (nbits w : Nat) : Option Instr :=
  match decodeTableStream nbits w with
  | .ok i => some i
  | .error _ => none

end Sys2Proof
end

