-- ==== Sys2Proof/Machine/State.lean ====
section
/-! DEFINITION. The machine's state as plain data (R10, R23, R24, R26), how a step can stop, and the state after reset. -/

namespace Sys2Proof.Machine

/-- The register file: exactly 16 registers of 8 bits (R10). None is hardwired, read-only or banked (R12). -/
structure RegFile where
  r0 : Byte
  r1 : Byte
  r2 : Byte
  r3 : Byte
  r4 : Byte
  r5 : Byte
  r6 : Byte
  r7 : Byte
  ba : Byte
  bb : Byte
  d0 : Byte
  d1 : Byte
  d2 : Byte
  d3 : Byte
  pc : Byte
  cr : Byte
deriving DecidableEq, Repr

/-- The whole state (R26). `len` is the length of `prog` (R23; log 2) and `no_instr` is computed (R25). -/
structure State where
  /-- The register file (R10). -/
  regs : RegFile
  /-- The decoded program, indexed from 0 (R23). -/
  prog : List Instr
  /-- Whether the store holds the program of a successful last load (R23, R24). -/
  progValid : Bool
  /-- The 3-bit error code of the last load (R24, R131). -/
  errCode : BitVec 3
  /-- The byte carried by the error of the last load (R24, R131). -/
  errByte : Byte
deriving DecidableEq, Repr

/-- Why a step faults. There is no reason: executing an instruction never raises an exception and never faults (R8, R138),
so the type has no constructor, and no step can answer a fault. -/
inductive Fault
deriving DecidableEq, Repr

/-- Why an operation is refused. A refused operation changes no state. -/
inductive Refusal where
  /-- An instruction with no meaning in this model; raised by no arm of `exec`, since every instruction has its meaning.
  Safe: a refused step gives no run to prove things about. -/
  | notModelled (mnemonic : String)
  /-- A `Step` while `prog_valid = 0` (R110, R154, D15); raised by `step`. Safe, and the spec's own effect. -/
  | noProgram
  /-- A host `ReadReg` or `WriteReg` of a code that names no register (R46, D16); raised by the host interface only,
  never by `step`. Safe, and the spec's own effect. -/
  | noSuchRegister (code : Byte)
deriving DecidableEq, Repr

/-- The register file with every register 0x00 (R10, R150). -/
def zeroRegs : RegFile :=
  { r0 := 0, r1 := 0, r2 := 0, r3 := 0, r4 := 0, r5 := 0, r6 := 0, r7 := 0, ba := 0, bb := 0,
    d0 := 0, d1 := 0, d2 := 0, d3 := 0, pc := 0, cr := 0 }

/-- The machine at power-up, before any load (R29, R152): every register 0x00, the program store empty and invalid, no
error (D22; log 12). The host operation `Reset`, which keeps a loaded program, is `State.hostReset`. -/
def State.reset : State :=
  { regs := zeroRegs, prog := [], progValid := false, errCode := 0, errByte := 0 }

end Sys2Proof.Machine
end

