-- ==== Sys2Proof/Machine/Ops.lean ====
section
/-! DEFINITION. The named operations over the register file and the program store: reading and writing a register, the next
PC, retiring a result, the fetch, raising a decode error, and loading. -/

namespace Sys2Proof.Machine

/-! ### Registers -/

/-- The register of the file with a given name (R10). -/
def RegFile.get (f : RegFile) : Reg → Byte
  | .r0 => f.r0 | .r1 => f.r1 | .r2 => f.r2 | .r3 => f.r3
  | .r4 => f.r4 | .r5 => f.r5 | .r6 => f.r6 | .r7 => f.r7
  | .ba => f.ba | .bb => f.bb
  | .d0 => f.d0 | .d1 => f.d1 | .d2 => f.d2 | .d3 => f.d3
  | .pc => f.pc | .cr => f.cr

/-- The file with one register written, the whole 8 bits of it (R40). -/
def RegFile.set (f : RegFile) (r : Reg) (v : Byte) : RegFile :=
  match r with
  | .r0 => { f with r0 := v } | .r1 => { f with r1 := v } | .r2 => { f with r2 := v } | .r3 => { f with r3 := v }
  | .r4 => { f with r4 := v } | .r5 => { f with r5 := v } | .r6 => { f with r6 := v } | .r7 => { f with r7 := v }
  | .ba => { f with ba := v } | .bb => { f with bb := v }
  | .d0 => { f with d0 := v } | .d1 => { f with d1 := v } | .d2 => { f with d2 := v } | .d3 => { f with d3 := v }
  | .pc => { f with pc := v } | .cr => { f with cr := v }

/-- `x[r]` (R9). Reading has no side effect (R41). -/
def State.reg (s : State) (r : Reg) : Byte := s.regs.get r

/-- `x[r] <- v` (R9). Nothing else changes (R41). -/
def State.setReg (s : State) (r : Reg) (v : Byte) : State := { s with regs := s.regs.set r v }

/-! ### The program counter multiplexer -/

/-- The next PC (R111): the target of a taken branch, otherwise the PC plus 1 modulo 256. -/
def pcMux (taken : Option Byte) (pc : Byte) : Byte :=
  match taken with
  | some target => target
  | none => pc + 1

/-- `NextPC` (R111): `some target` for a taken branch, `none` for the default increment of the PC as this step's own write
left it. -/
def State.nextPc (s : State) (taken : Option Byte) : State := s.setReg .pc (pcMux taken (s.reg .pc))

/-- The end of a non-branch instruction with destination `t` (R80, R100, R111): the result is written, then PC is
incremented. A destination PC is incremented too, unless the parameter `pcWriteIncrements` is false (D12; log 6). -/
def State.retire (c : Config) (s : State) (t : Reg) (v : Byte) : State :=
  if t = .pc ∧ c.pcWriteIncrements = false then s.setReg t v else (s.setReg t v).nextPc none

/-! ### The program store -/

/-- `len`, the number of records in the store (R23; log 2). -/
def State.len (s : State) : Nat := s.prog.length

/-- `Fetch(i)` (R36): the instruction at an index of a valid program, `none` past its end or without one. -/
def State.fetch (s : State) (index : Byte) : Option Instr :=
  if s.progValid then s.prog[index.toNat]? else none

/-- The combinational status output `no_instr` (R25). -/
def State.noInstr (s : State) : Bool := s.progValid && decide (s.len ≤ (s.reg .pc).toNat)

/-- `raise E(v)` (R130): the one exception entry of the machine. It ends a load: the program is no longer valid, the status
records the error, no register changes, nothing is saved and no control is transferred (R140). There is no return from
it (R141). What the store held stays in its cells, out of reach (R62; log 3). -/
def State.raise (s : State) (e : DecodeError) : State :=
  { s with progValid := false, errCode := e.code, errByte := e.payload }

/-- The store and status after a successful load of a decoded program (R62). -/
def State.installProgram (s : State) (prog : List Instr) : State :=
  { s with prog := prog, progValid := true, errCode := 0, errByte := 0 }

/-- `Load(bytes)` (R62, R46): the whole program or an error; the registers are untouched on both paths (R151). -/
def State.load (s : State) (bytes : List Byte) : State :=
  match decodeStream bytes with
  | .ok prog => s.installProgram prog
  | .error e => s.raise e

/-- The program with `i` at an index: replaced there if the program reaches so far, otherwise lengthened with copies of `i`. -/
def placeAt (i : Instr) : Nat → List Instr → List Instr
  | 0, [] => [i]
  | 0, _ :: rest => i :: rest
  | n + 1, [] => i :: placeAt i n []
  | n + 1, j :: rest => j :: placeAt i n rest

/-- A load, from outside, that puts the instruction of a table word where the next step fetches (log 1): the record at
index `x[PC]`. The other records of a valid program stay; a word that does not decode is a failed load. -/
def State.loadTableWord (s : State) (nbits w : Nat) : State :=
  match decodeTableStream nbits w with
  | .ok i => s.installProgram (placeAt i (s.reg .pc).toNat (if s.progValid then s.prog else []))
  | .error e => s.raise e

end Sys2Proof.Machine
end

