-- ==== Sys2Proof/Machine/Operands.lean ====
section
/-! DEFINITION. The source operand forms of rr and ri instructions (R35). A branch's absolute record index is used as it
stands (R118), so it needs no evaluation. -/

namespace Sys2Proof.Machine

/-- A source operand: register direct (rr form) or immediate (ri form). -/
inductive Operand where
  | reg (s : Reg)
  | imm (v : Byte)
deriving DecidableEq, Repr

/-- The value of a source operand, read before any result is written (R80, R156). A source PC gives the index of the
instruction being executed (R14, D13; log 6). -/
def State.operand (s : State) : Operand → Byte
  | .reg r => s.reg r
  | .imm v => v

end Sys2Proof.Machine
end

