-- ==== Sys2Proof/Machine/Flags.lean ====
section
/-! DEFINITION. The comparison flag: the signed reading of CR and the branch conditions on it. CR is the machine's only flag,
and it is written as a register (R17, R19). -/

namespace Sys2Proof.Machine

/-- `signed8` (R7): the two's-complement reading of a byte, used by the branch conditions only (I7; log 15). -/
def signed8 (v : Byte) : Int := if v.toNat ≤ 127 then v.toNat else v.toNat - 256

/-- Condition `EQ` (R18). -/
def condEq (cr : Byte) : Bool := decide (signed8 cr = 0)

/-- Condition `NE` (R18). -/
def condNe (cr : Byte) : Bool := decide (signed8 cr ≠ 0)

/-- Condition `GT` (R18). -/
def condGt (cr : Byte) : Bool := decide (signed8 cr > 0)

/-- Condition `LT` (R18). -/
def condLt (cr : Byte) : Bool := decide (signed8 cr < 0)

/-- The five branch kinds (R59). -/
inductive BranchKind where
  | br | be | bne | bg | bl
deriving DecidableEq, Repr

/-- `Cond(kind)` on the value of CR (R112). -/
def BranchKind.cond : BranchKind → Byte → Bool
  | .br, _ => true
  | .be, cr => condEq cr
  | .bne, cr => condNe cr
  | .bg, cr => condGt cr
  | .bl, cr => condLt cr

end Sys2Proof.Machine
end

