-- ==== Sys2Proof/Machine/Alu.lean ====
section
/-! DEFINITION. The arithmetic, shift and bitwise instructions (41_alu, R80 to R95). -/

namespace Sys2Proof.Machine

/-- The operations of the ALU (R81). -/
inductive AluOp where
  | add | sub | lsh | rsh | and | or | xor
deriving DecidableEq, Repr

/-- The number of places a shift amount stands for (R81, D10; log 4). -/
def shiftAmount (p : ShiftPolicy) (amount : Byte) : Nat :=
  match p with
  | .mod8 => amount.toNat % 8
  | .saturateToZero => amount.toNat

/-- `ALU(op, A, B)` (R81): 8-bit results, modulo 256; shifts fill with zeros (D11; log 5). -/
def alu (c : Config) (op : AluOp) (a b : Byte) : Byte :=
  match op with
  | .add => a + b
  | .sub => a - b
  | .lsh => a <<< shiftAmount c.shiftPolicy b
  | .rsh => a >>> shiftAmount c.shiftPolicy b
  | .and => a &&& b
  | .or => a ||| b
  | .xor => a ^^^ b

/-- `ExecALU` (R80): both operands are read, then the result is written to the target, then PC is incremented. -/
def execAluWith (c : Config) (op : AluOp) (t : Reg) (src : Operand) (s : State) : Host.Outcome State Fault Refusal :=
  .next (s.retire c t (alu c op (s.reg t) (s.operand src)))

/-- ADD %T, %S (R82). -/
def execAdd (t r : Reg) (s : State) : Host.Outcome State Fault Refusal := execAluWith machineConfig .add t (.reg r) s

/-- ADD %T, $I (R83). -/
def execAddv (t : Reg) (imm : Byte) (s : State) : Host.Outcome State Fault Refusal :=
  execAluWith machineConfig .add t (.imm imm) s

/-- SUB %T, %S (R84). -/
def execSub (t r : Reg) (s : State) : Host.Outcome State Fault Refusal := execAluWith machineConfig .sub t (.reg r) s

/-- SUB %T, $I (R85). -/
def execSubv (t : Reg) (imm : Byte) (s : State) : Host.Outcome State Fault Refusal :=
  execAluWith machineConfig .sub t (.imm imm) s

/-- LSH %T, %S (R86). -/
def execLsh (t r : Reg) (s : State) : Host.Outcome State Fault Refusal := execAluWith machineConfig .lsh t (.reg r) s

/-- LSH %T, $I (R87). -/
def execLshv (t : Reg) (imm : Byte) (s : State) : Host.Outcome State Fault Refusal :=
  execAluWith machineConfig .lsh t (.imm imm) s

/-- RSH %T, %S (R88). -/
def execRsh (t r : Reg) (s : State) : Host.Outcome State Fault Refusal := execAluWith machineConfig .rsh t (.reg r) s

/-- RSH %T, $I (R89). -/
def execRshv (t : Reg) (imm : Byte) (s : State) : Host.Outcome State Fault Refusal :=
  execAluWith machineConfig .rsh t (.imm imm) s

/-- AND %T, %S (R90). -/
def execAnd (t r : Reg) (s : State) : Host.Outcome State Fault Refusal := execAluWith machineConfig .and t (.reg r) s

/-- AND %T, $I (R91). -/
def execAndv (t : Reg) (imm : Byte) (s : State) : Host.Outcome State Fault Refusal :=
  execAluWith machineConfig .and t (.imm imm) s

/-- OR %T, %S (R92). -/
def execOr (t r : Reg) (s : State) : Host.Outcome State Fault Refusal := execAluWith machineConfig .or t (.reg r) s

/-- OR %T, $I (R93). -/
def execOrv (t : Reg) (imm : Byte) (s : State) : Host.Outcome State Fault Refusal :=
  execAluWith machineConfig .or t (.imm imm) s

/-- XOR %T, %S (R94). -/
def execXor (t r : Reg) (s : State) : Host.Outcome State Fault Refusal := execAluWith machineConfig .xor t (.reg r) s

/-- XOR %T, $I (R95). -/
def execXorv (t : Reg) (imm : Byte) (s : State) : Host.Outcome State Fault Refusal :=
  execAluWith machineConfig .xor t (.imm imm) s

end Sys2Proof.Machine
end

