-- ==== Sys2Proof/Machine/MovCmp.lean ====
section
/-! DEFINITION. The move and compare instructions (42_mov_cmp, R100 to R103). -/

namespace Sys2Proof.Machine

/-- A move (R100, R101): the source passes to the target unchanged, then PC is incremented. -/
def execMovWith (c : Config) (t : Reg) (src : Operand) (s : State) : Host.Outcome State Fault Refusal :=
  .next (s.retire c t (s.operand src))

/-- A compare (R102, R103): CR receives the wrapped difference, on the adder of SUB (R81), then PC is incremented. The target
is read only, unless it is CR itself. -/
def execCmpWith (c : Config) (t : Reg) (src : Operand) (s : State) : Host.Outcome State Fault Refusal :=
  .next (s.retire c .cr (alu c .sub (s.reg t) (s.operand src)))

/-- MOV %T, %S (R100). -/
def execMov (t r : Reg) (s : State) : Host.Outcome State Fault Refusal := execMovWith machineConfig t (.reg r) s

/-- MOV %T, $I (R101). -/
def execMovv (t : Reg) (imm : Byte) (s : State) : Host.Outcome State Fault Refusal := execMovWith machineConfig t (.imm imm) s

/-- CMP %T, %S (R102). -/
def execCmp (t r : Reg) (s : State) : Host.Outcome State Fault Refusal := execCmpWith machineConfig t (.reg r) s

/-- CMP %T, $I (R103). -/
def execCmpv (t : Reg) (imm : Byte) (s : State) : Host.Outcome State Fault Refusal := execCmpWith machineConfig t (.imm imm) s

end Sys2Proof.Machine
end

