-- ==== Sys2Proof/Machine/Branch.lean ====
section
/-! DEFINITION. The branch instructions (43_branch_pc, R112 to R118). A target is an absolute record index; every value is
legal, and nothing checks it against `len` (R118). There is no delay slot (R119). -/

namespace Sys2Proof.Machine

/-- A branch (R112): PC becomes the target if the condition holds of CR, otherwise PC is incremented. Nothing else changes. -/
def execBranch (kind : BranchKind) (target : Byte) (s : State) : Host.Outcome State Fault Refusal :=
  .next (s.nextPc (if kind.cond (s.reg .cr) then some target else none))

/-- BR $A (R113). -/
def execBr (target : Byte) (s : State) : Host.Outcome State Fault Refusal := execBranch .br target s

/-- BE $A (R114). -/
def execBe (target : Byte) (s : State) : Host.Outcome State Fault Refusal := execBranch .be target s

/-- BNE $A (R115). -/
def execBne (target : Byte) (s : State) : Host.Outcome State Fault Refusal := execBranch .bne target s

/-- BG $A (R116). -/
def execBg (target : Byte) (s : State) : Host.Outcome State Fault Refusal := execBranch .bg target s

/-- BL $A (R117). -/
def execBl (target : Byte) (s : State) : Host.Outcome State Fault Refusal := execBranch .bl target s

end Sys2Proof.Machine
end

