-- ==== Sys2Proof/Machine/Dispatch.lean ====
section
/-! DEFINITION. One arm per instruction of the opcode table (R110). -/

namespace Sys2Proof.Machine

def exec (i : Instr) (s : State) : Host.Outcome State Fault Refusal :=
  match i with
  | .add t r => Sys2Proof.Machine.execAdd t r s
  | .addv t imm => Sys2Proof.Machine.execAddv t imm s
  | .sub t r => Sys2Proof.Machine.execSub t r s
  | .subv t imm => Sys2Proof.Machine.execSubv t imm s
  | .lsh t r => Sys2Proof.Machine.execLsh t r s
  | .lshv t imm => Sys2Proof.Machine.execLshv t imm s
  | .rsh t r => Sys2Proof.Machine.execRsh t r s
  | .rshv t imm => Sys2Proof.Machine.execRshv t imm s
  | .and t r => Sys2Proof.Machine.execAnd t r s
  | .andv t imm => Sys2Proof.Machine.execAndv t imm s
  | .or t r => Sys2Proof.Machine.execOr t r s
  | .orv t imm => Sys2Proof.Machine.execOrv t imm s
  | .xor t r => Sys2Proof.Machine.execXor t r s
  | .xorv t imm => Sys2Proof.Machine.execXorv t imm s
  | .cmp t r => Sys2Proof.Machine.execCmp t r s
  | .cmpv t imm => Sys2Proof.Machine.execCmpv t imm s
  | .mov t r => Sys2Proof.Machine.execMov t r s
  | .movv t imm => Sys2Proof.Machine.execMovv t imm s
  | .br target => Sys2Proof.Machine.execBr target s
  | .be target => Sys2Proof.Machine.execBe target s
  | .bne target => Sys2Proof.Machine.execBne target s
  | .bg target => Sys2Proof.Machine.execBg target s
  | .bl target => Sys2Proof.Machine.execBl target s

end Sys2Proof.Machine
end

