-- ==== Sys2Proof/Machine/Step.lean ====
section
/-! DEFINITION. One `Step` (R110), and the placing of a word where the next step fetches. -/

namespace Sys2Proof.Machine

/-- `Step` (R110): refused without a valid program (R154, D15); no change where the fetch gives nothing (R120, D14);
otherwise the one instruction at index `x[PC]`. -/
def step (s : State) : Host.Outcome State Fault Refusal :=
  if s.progValid then
    match s.fetch (s.reg .pc) with
    | none => .next s
    | some i => exec i s
  else .refused .noProgram

/-- The state with a table word placed as the record the next step fetches (log 1). -/
def State.withFetchWord (s : State) (nbits w : Nat) : State := s.loadTableWord nbits w

end Sys2Proof.Machine
end

