-- ==== Sys2Proof/Machine/Disasm.lean ====
section
/-! DEFINITION. The disassembly text of decoded instructions (R71 to R73). No execution rule depends on it. -/

namespace Sys2Proof.Machine

/-- The name of a register (R10). -/
def regName : Reg → String
  | .r0 => "R0" | .r1 => "R1" | .r2 => "R2" | .r3 => "R3"
  | .r4 => "R4" | .r5 => "R5" | .r6 => "R6" | .r7 => "R7"
  | .ba => "BA" | .bb => "BB"
  | .d0 => "D0" | .d1 => "D1" | .d2 => "D2" | .d3 => "D3"
  | .pc => "PC" | .cr => "CR"

/-- A byte in decimal with no leading zeros (R72). -/
def decimal (v : Byte) : String := v.toNat.repr

/-- A line of rr form: a mnemonic already padded to 3 characters, then the operands (R72). -/
def lineRr (mnemonic : String) (t s : Reg) : String :=
  mnemonic ++ " %" ++ regName t ++ ", %" ++ regName s

/-- A line of ri form (R72). -/
def lineRi (mnemonic : String) (t : Reg) (imm : Byte) : String :=
  mnemonic ++ " %" ++ regName t ++ ", $" ++ decimal imm

/-- A line of branch form (R72). -/
def lineBranch (mnemonic : String) (target : Byte) : String := mnemonic ++ " $" ++ decimal target

/-- A mnemonic followed by spaces up to 3 characters (R72). -/
def pad3 (m : String) : String := m ++ String.ofList (List.replicate (3 - m.length) ' ')

/-- The disassembly of one instruction (R71, R72): rr and ri forms share one mnemonic. -/
def disasm : Instr → String
  | .add t s => lineRr (pad3 "ADD") t s
  | .addv t imm => lineRi (pad3 "ADD") t imm
  | .sub t s => lineRr (pad3 "SUB") t s
  | .subv t imm => lineRi (pad3 "SUB") t imm
  | .lsh t s => lineRr (pad3 "LSH") t s
  | .lshv t imm => lineRi (pad3 "LSH") t imm
  | .rsh t s => lineRr (pad3 "RSH") t s
  | .rshv t imm => lineRi (pad3 "RSH") t imm
  | .and t s => lineRr (pad3 "AND") t s
  | .andv t imm => lineRi (pad3 "AND") t imm
  | .or t s => lineRr (pad3 "OR") t s
  | .orv t imm => lineRi (pad3 "OR") t imm
  | .xor t s => lineRr (pad3 "XOR") t s
  | .xorv t imm => lineRi (pad3 "XOR") t imm
  | .cmp t s => lineRr (pad3 "CMP") t s
  | .cmpv t imm => lineRi (pad3 "CMP") t imm
  | .mov t s => lineRr (pad3 "MOV") t s
  | .movv t imm => lineRi (pad3 "MOV") t imm
  | .br target => lineBranch (pad3 "BR") target
  | .be target => lineBranch (pad3 "BE") target
  | .bne target => lineBranch (pad3 "BNE") target
  | .bg target => lineBranch (pad3 "BG") target
  | .bl target => lineBranch (pad3 "BL") target

/-- The disassembly of a program, one line per instruction in index order (R73). -/
def disasmProgram (prog : List Instr) : List String := prog.map disasm

/-- A number as `%03d` prints it: at least three digits, wider when it needs more (R73, I14; log 18). -/
def lineNumber (n : Nat) : String := String.ofList (List.replicate (3 - n.repr.length) '0') ++ n.repr

/-- The numbered listing from a first number on: `%03d: %s` (R73). -/
def numberedFrom (first : Nat) : List Instr → List String
  | [] => []
  | i :: prog => (lineNumber first ++ ": " ++ disasm i) :: numberedFrom (first + 1) prog

/-- The numbered listing of a program, numbered from 1 (R73). -/
def numberedListing (prog : List Instr) : List String := numberedFrom 1 prog

/-- Lines joined by one newline each, none after the last (R73, D29; log 18). -/
def joinLines (lines : List String) : String := "\n".intercalate lines

/-- The loaded program (R23, R146): none while `prog_valid = 0`. -/
def State.loadedProgram (s : State) : Option (List Instr) := if s.progValid then some s.prog else none

/-- What the host prints of the loaded program (R73, R146). DESIGN CHOICE (log 21): the spec gives no listing while
`prog_valid = 0`, and the model then has none, whatever an earlier load left in the store. -/
def State.listing (s : State) : Option String := s.loadedProgram.map fun prog => joinLines (disasmProgram prog)

/-- The numbered listing of the loaded program (R73, R146); none while `prog_valid = 0`, as for `State.listing`
(DESIGN CHOICE, log 21). -/
def State.numbered (s : State) : Option String := s.loadedProgram.map fun prog => joinLines (numberedListing prog)

end Sys2Proof.Machine
end

