-- ==== Sys2Proof/Machine/Interface.lean ====
section
/-! DEFINITION. The block interface: the five atomic operations of the host (R27, R46) and the status outputs (R24, R25). -/

namespace Sys2Proof.Machine

/-- The classes of registers (R10). -/
inductive RegClass where
  | generalPurpose | input | output | programCounter | comparisonFlag
deriving DecidableEq, Repr

/-- The class of a register (R10, R20 to R22). A class restricts nothing: every register is read and written alike (R12). -/
def regClass : Reg → RegClass
  | .r0 | .r1 | .r2 | .r3 | .r4 | .r5 | .r6 | .r7 => .generalPurpose
  | .ba | .bb => .input
  | .d0 | .d1 | .d2 | .d3 => .output
  | .pc => .programCounter
  | .cr => .comparisonFlag

/-- What the renderer reads between steps: D0 to D3 (R22, R144). -/
def State.outputs (s : State) : List Byte := [s.reg .d0, s.reg .d1, s.reg .d2, s.reg .d3]

/-- The outputs of a `Load` (R27). -/
structure LoadStatus where
  progValid : Bool
  errCode : BitVec 3
  errByte : Byte
  len : Nat
deriving DecidableEq, Repr

/-- The status outputs as they stand (R24, R27). -/
def State.loadStatus (s : State) : LoadStatus :=
  { progValid := s.progValid, errCode := s.errCode, errByte := s.errByte, len := s.len }

/-- The host's operations (R27). -/
inductive HostOp where
  | reset
  | load (bytes : List Byte)
  | step
  | readReg (code : Byte)
  | writeReg (code v : Byte)
deriving DecidableEq, Repr

/-- What an operation gives the host (R27). -/
inductive Response where
  | done
  | loaded (status : LoadStatus)
  /-- A step was taken; `no_instr` as it stood before it. -/
  | stepped (noInstr : Bool)
  | value (v : Byte)
  | refused (why : Refusal)
deriving DecidableEq, Repr

/-- The operation `Reset`: all 16 registers 0x00, the program store and the decoder status kept (R150, R151, D21; log 12). -/
def State.hostReset (s : State) : State := { s with regs := zeroRegs }

/-- The operation `Step` seen by the host: a refused step changes no state (R46, R154). -/
def State.hostStep (s : State) : State × Response :=
  match step s with
  | .next s' => (s', .stepped s.noInstr)
  | .refused why => (s, .refused why)
  | .fault impossible => nomatch impossible

/-- The operation `ReadReg` (R46): the register, or a refusal for a code that names none (D16; log 11). -/
def State.hostRead (s : State) (code : Byte) : State × Response :=
  match Reg.ofCode code with
  | some r => (s, .value (s.reg r))
  | none => (s, .refused (.noSuchRegister code))

/-- The operation `WriteReg` (R46), PC and CR included: a refusal for a code that names no register (D16; log 11). -/
def State.hostWrite (s : State) (code v : Byte) : State × Response :=
  match Reg.ofCode code with
  | some r => (s.setReg r v, .done)
  | none => (s, .refused (.noSuchRegister code))

/-- One host operation, atomic and complete before the next begins (R27, R42, R46). -/
def State.perform (s : State) : HostOp → State × Response
  | .reset => (s.hostReset, .done)
  | .load bytes => (s.load bytes, .loaded (s.load bytes).loadStatus)
  | .step => s.hostStep
  | .readReg code => s.hostRead code
  | .writeReg code v => s.hostWrite code v

/-- The state after a sequence of host operations, each seeing what every earlier one left (R43). -/
def State.performAll (s : State) : List HostOp → State
  | [] => s
  | op :: ops => (s.perform op).1.performAll ops

end Sys2Proof.Machine
end

