-- ==== Sys2Proof/Safety.lean ====
section
/-! DEFINITION. The terms the claims use: what an instruction may change, what it reads, runs of many steps, and the
invariant of the program store and the decoder status. -/

namespace Sys2Proof.Machine

/-- The program store and the decoder status are the same in two states. -/
def SameStore (s s' : State) : Prop :=
  s'.prog = s.prog ∧ s'.progValid = s.progValid ∧ s'.errCode = s.errCode ∧ s'.errByte = s.errByte

/-- From `s` to `s'`, the value `v` was written to `t` and PC was then incremented; where `t` is PC, PC ends as `v` plus 1
(R111). Every other register, the store and the status are unchanged. -/
def Retires (s s' : State) (t : Reg) (v : Nat) : Prop :=
  (t ≠ .pc → (s'.reg t).toNat = v ∧ (s'.reg .pc).toNat = ((s.reg .pc).toNat + 1) % 256)
    ∧ (t = .pc → (s'.reg .pc).toNat = (v + 1) % 256)
    ∧ (∀ r, r ≠ t → r ≠ .pc → s'.reg r = s.reg r)
    ∧ SameStore s s'

/-- From `s` to `s'`, only PC changed, and it is `next`. -/
def Jumps (s s' : State) (next : Nat) : Prop :=
  (s'.reg .pc).toNat = next ∧ (∀ r, r ≠ .pc → s'.reg r = s.reg r) ∧ SameStore s s'

/-- The one register an instruction writes besides the PC update (R156): its target, CR for a compare, none for a branch. -/
def destination : Instr → Option Reg
  | .add t _ | .sub t _ | .lsh t _ | .rsh t _ | .and t _ | .or t _ | .xor t _ | .mov t _ => some t
  | .addv t _ | .subv t _ | .lshv t _ | .rshv t _ | .andv t _ | .orv t _ | .xorv t _ | .movv t _ => some t
  | .cmp _ _ | .cmpv _ _ => some .cr
  | .br _ | .be _ | .bne _ | .bg _ | .bl _ => none

/-- The registers whose values an instruction's effect depends on, besides PC for the increment: the target of every
rr and ri instruction except a move (R14), the source register, CR for a conditional branch (R112). -/
def sources : Instr → List Reg
  | .add t r | .sub t r | .lsh t r | .rsh t r | .and t r | .or t r | .xor t r | .cmp t r => [t, r]
  | .addv t _ | .subv t _ | .lshv t _ | .rshv t _ | .andv t _ | .orv t _ | .xorv t _ | .cmpv t _ => [t]
  | .mov _ r => [r]
  | .movv _ _ => []
  | .br _ => []
  | .be _ | .bne _ | .bg _ | .bl _ => [.cr]

/-- The absolute target of a branch (R118). -/
def branchTarget : Instr → Option Byte
  | .br a | .be a | .bne a | .bg a | .bl a => some a
  | _ => none

/-- Whether a host operation is a load. -/
def HostOp.isLoad : HostOp → Bool
  | .load _ => true
  | _ => false

/-- A run of `n` steps (R159): it ends early only where a step is refused. -/
def runSteps : Nat → State → Host.Outcome State Fault Refusal
  | 0, s => .next s
  | n + 1, s =>
    match step s with
    | .next s' => runSteps n s'
    | .fault r => .fault r
    | .refused r => .refused r

/-- The program store and the decoder status fit together (R23, R24, R131 to R136): a valid program has a record and no
error beside it; without one the status is the power-up status or an error whose byte is one that error can carry. The
codes 6 and 7 are never there. -/
def statusOk (s : State) : Bool :=
  if s.progValid then programOk s.prog && s.errCode == 0 && s.errByte == 0
  else
    match s.errCode.toNat with
    | 0 => s.prog.isEmpty && s.errByte == 0
    | 1 => s.errByte == 0
    | 2 => !regCodes.contains s.errByte
    | 3 => formOf s.errByte == .branch && !branchOpcodes.contains s.errByte
    | 4 => formOf s.errByte == .ri && !riOpcodes.contains s.errByte
    | 5 => formOf s.errByte == .rr && !rrOpcodes.contains s.errByte
    | _ => false

end Sys2Proof.Machine
end

