-- ==== Sys2Proof/Certificates/Slice0/Obligations.lean ====
section
/-! DEFINITION. The statements for the provers. -/

open Sys2Proof Sys2Proof.Machine

/-! ### Reset -/

/-- Reset leaves every register 0x00, PC and CR among them; with CR = 0 a `BE` is taken and `BNE`, `BG`, `BL` are not (R150). -/
def Obligations.ResetZeroesEveryRegister : Prop :=
  ∀ s : State,
    (∀ r, (s.perform .reset).1.reg r = 0)
    ∧ ∀ a : Byte,
      (∃ t, exec (.be a) (s.perform .reset).1 = .next t ∧ Jumps (s.perform .reset).1 t a.toNat)
      ∧ (∃ t, exec (.bne a) (s.perform .reset).1 = .next t ∧ Jumps (s.perform .reset).1 t 1)
      ∧ (∃ t, exec (.bg a) (s.perform .reset).1 = .next t ∧ Jumps (s.perform .reset).1 t 1)
      ∧ (∃ t, exec (.bl a) (s.perform .reset).1 = .next t ∧ Jumps (s.perform .reset).1 t 1)

/-- The state at power-up. The registers' values are R10's; those of the program store and the decoder status are the spec's own decision D22 (log 12). -/
def Obligations.PowerUpState : Prop :=
  (∀ r, State.reset.reg r = 0) ∧ State.reset.len = 0 ∧ State.reset.prog = [] ∧ State.reset.progValid = false
    ∧ State.reset.errCode = 0 ∧ State.reset.errByte = 0 ∧ State.reset.noInstr = false

/-- Reset and Load touch disjoint parts of the state: the spec's own decision D21 (log 12), stated in R151. -/
def Obligations.ResetKeepsStoreLoadKeepsRegisters : Prop :=
  ∀ s : State, SameStore s (s.perform .reset).1
    ∧ ∀ bytes r, (s.perform (.load bytes)).1.reg r = s.reg r

/-- A program can be restarted from index 0 with `Reset` and no reload (R151, decision D21, log 12), whatever the host did meanwhile, since only a load writes the store (R45). -/
def Obligations.RestartWithoutReload : Prop :=
  ∀ (s : State) (ops : List HostOp), (∀ op ∈ ops, op.isLoad = false) →
    SameStore s (s.performAll ops) ∧ (s.performAll ops).hostReset = s.hostReset

/-! ### Decoding and encoding -/

/-- Exact-match lookup in the closed set of 16 codes; any other byte in a register-bearing position fails the decoding with `InvalidRegisterAddress` (R11). -/
def Obligations.RegisterCodesAreExact : Prop :=
  (∀ (b : Byte) (r : Reg), Reg.ofCode b = some r ↔ b = r.code)
    ∧ (∀ b : Byte, Reg.ofCode b = none ↔ (0x08 ≤ b.toNat ∧ b.toNat ≤ 0x0F) ∨ 0x18 ≤ b.toNat)
    ∧ ((List.range 256).countP (fun n => (Reg.ofCode (BitVec.ofNat 8 n)).isNone)) = 240
    ∧ (∀ op a b : Byte, formOf op = .ri → Reg.ofCode a = none →
        decodeRecord { op := op, a := a, b := b } = .error (.invalidRegisterAddress a))
    ∧ (∀ (op a : Byte) (r : Reg), formOf op = .rr → Reg.ofCode a = none →
        decodeRecord { op := op, a := a, b := r.code } = .error (.invalidRegisterAddress a))
    ∧ (∀ (op b : Byte) (t : Reg), formOf op = .rr → Reg.ofCode b = none →
        decodeRecord { op := op, a := t.code, b := b } = .error (.invalidRegisterAddress b))
    ∧ (∀ op a b : Byte, formOf op = .rr → Reg.ofCode a = none → Reg.ofCode b = none →
        ∃ v, (v = a ∨ v = b) ∧ decodeRecord { op := op, a := a, b := b } = .error (.invalidRegisterAddress v))
    ∧ (∀ t r : Reg, disasm (.mov t r) = "MOV %" ++ regName t ++ ", %" ++ regName r)

/-- The form tests and their precedence (R52, C1, C6); the three counts are the spec's own enumeration. -/
def Obligations.FormIsDecidedByTwoTests : Prop :=
  (∀ op : Byte, (formOf op = .branch ↔ op.getLsbD 6 = true ∧ op.getLsbD 4 = true)
      ∧ (formOf op = .ri ↔ ¬ (op.getLsbD 6 = true ∧ op.getLsbD 4 = true) ∧ op.getLsbD 0 = true)
      ∧ (formOf op = .rr ↔ ¬ (op.getLsbD 6 = true ∧ op.getLsbD 4 = true) ∧ op.getLsbD 0 = false))
    ∧ ((List.range 256).countP (fun n => formOf (BitVec.ofNat 8 n) == .branch)) = 64
    ∧ ((List.range 256).countP (fun n => formOf (BitVec.ofNat 8 n) == .ri)) = 96
    ∧ ((List.range 256).countP (fun n => formOf (BitVec.ofNat 8 n) == .rr)) = 96

/-- A record of each family, its bytes as the spec's encoding writes them (95 V6). Packed into table words with byte 0 in bits 7..0, so that 10 01 02 is 0x020110: that packing is the model's choice (DESIGN CHOICE, log 17), where R50 numbers byte 0 as bits 23..16. -/
def Obligations.WordsOfTheSpecDecode : Prop :=
  decodeTableWord 24 0x020110 = some (.add .r1 .r2)
    ∧ decodeTableWord 24 0x030723 = some (.rshv .r7 3)
    ∧ decodeTableWord 24 0xFF1535 = some (.xorv .d3 0xFF)
    ∧ decodeTableWord 24 0x641741 = some (.cmpv .cr 100)
    ∧ decodeTableWord 24 0x171660 = some (.mov .pc .cr)
    ∧ decodeTableWord 24 0x07FF58 = some (.bl 0xFF)

/-- The decoder and the spec's lists of valid records agree on every record (R64, R66). The exact match of the opcode byte is the spec's own reading (R60, D6, D7; log 7). -/
def Obligations.DecoderAcceptsExactlyWellFormedRecords : Prop :=
  ∀ r : Record, (∃ i, decodeRecord r = .ok i) ↔ r.wellFormed = true

/-- The error each bad record raises (R133 to R137). The order of the checks within a record is the spec's own decision D8 (log 8), the exact dispatch D6 and D7 (log 7). -/
def Obligations.RecordErrorPrecedence : Prop :=
  ∀ op a b : Byte,
    (formOf op = .branch → branchOpcodes.contains op = false →
      decodeRecord { op := op, a := a, b := b } = .error (.invalidBranchOpCode op))
    ∧ (formOf op = .ri → regCodes.contains a = false →
      decodeRecord { op := op, a := a, b := b } = .error (.invalidRegisterAddress a))
    ∧ (formOf op = .ri → regCodes.contains a = true → riOpcodes.contains op = false →
      decodeRecord { op := op, a := a, b := b } = .error (.invalidSrcValueOpCode op))
    ∧ (formOf op = .rr → regCodes.contains a = false →
      decodeRecord { op := op, a := a, b := b } = .error (.invalidRegisterAddress a))
    ∧ (formOf op = .rr → regCodes.contains a = true → regCodes.contains b = false →
      decodeRecord { op := op, a := a, b := b } = .error (.invalidRegisterAddress b))
    ∧ (formOf op = .rr → regCodes.contains a = true → regCodes.contains b = true → rrOpcodes.contains op = false →
      decodeRecord { op := op, a := a, b := b } = .error (.invalidOpCode op))

/-- Decoding an encoded instruction gives the same instruction back (R70; the encoder is the spec's own, D28, log 19). -/
def Obligations.DecodeOfEncodeIsIdentity : Prop :=
  ∀ i : Instr, decodeRecord (encode i) = .ok i

/-- The other direction of the round trip (R70); the 0x00 in a branch record is the spec's own choice (D28, log 19). -/
def Obligations.EncodeOfDecodeRestoresTheRecord : Prop :=
  ∀ (r : Record) (i : Instr), decodeRecord r = .ok i →
    encode i = { op := r.op, a := r.a, b := if formOf r.op = .branch then 0x00 else r.b }

/-- The length check comes before any record and wins over every other error; no record raises `InvalidProgram` (R132). -/
def Obligations.InvalidProgramExactlyOnBadLength : Prop :=
  ∀ bytes : List Byte,
    decodeStream bytes = .error .invalidProgram ↔ bytes.length = 0 ∨ bytes.length % 3 ≠ 0

/-- Fail-fast decoding in index order (R62, R137; the reported record is the spec's own decision D9, log 8; the status is D3). -/
def Obligations.FirstFailingRecordIsReported : Prop :=
  ∀ (s : State) (good : List Record) (bad : Record) (rest : List Byte) (e : DecodeError),
    (∀ r ∈ good, ∃ i, decodeRecord r = .ok i) → decodeRecord bad = .error e → rest.length % 3 = 0 →
    (s.load (good.flatMap Record.bytes ++ bad.bytes ++ rest)).progValid = false
    ∧ (s.load (good.flatMap Record.bytes ++ bad.bytes ++ rest)).errCode = e.code
    ∧ (s.load (good.flatMap Record.bytes ++ bad.bytes ++ rest)).errByte = e.payload
    ∧ ∀ r, (s.load (good.flatMap Record.bytes ++ bad.bytes ++ rest)).reg r = s.reg r

/-- The round trip over whole streams (R51, R62, R70; the encoder is D28, log 19, the unbounded length D18, log 14). -/
def Obligations.LoadOfEncodedProgram : Prop :=
  ∀ (s : State) (prog : List Instr), prog ≠ [] →
    (s.load (encodeProgram prog)).prog = prog
    ∧ (s.load (encodeProgram prog)).progValid = true
    ∧ (s.load (encodeProgram prog)).errCode = 0
    ∧ (s.load (encodeProgram prog)).errByte = 0
    ∧ ∀ r, (s.load (encodeProgram prog)).reg r = s.reg r

/-- `raise` (R130, R131): the status after a failed load is the spec's own decision D3 (log 3), the codes D4 and D5 (log 13), the refused step D15 (log 9). -/
def Obligations.FailedLoadRecordsTheError : Prop :=
  ∀ (s : State) (bytes : List Byte) (e : DecodeError), decodeStream bytes = .error e →
    (s.load bytes).progValid = false
    ∧ (s.load bytes).errCode = e.code
    ∧ (s.load bytes).errByte = e.payload
    ∧ (∀ r, (s.load bytes).reg r = s.reg r)
    ∧ (s.load bytes).perform .step = (s.load bytes, .refused .noProgram)
    ∧ (DecodeError.invalidProgram.code = 1 ∧ DecodeError.invalidProgram.payload = 0x00)
    ∧ ∀ v, (DecodeError.invalidRegisterAddress v).code = 2 ∧ (DecodeError.invalidRegisterAddress v).payload = v
      ∧ (DecodeError.invalidBranchOpCode v).code = 3 ∧ (DecodeError.invalidBranchOpCode v).payload = v
      ∧ (DecodeError.invalidSrcValueOpCode v).code = 4 ∧ (DecodeError.invalidSrcValueOpCode v).payload = v
      ∧ (DecodeError.invalidOpCode v).code = 5 ∧ (DecodeError.invalidOpCode v).payload = v

/-! ### The step -/

/-- The step is the meaning of the fetched instruction (R36, R110); decoding took place at the load. -/
def Obligations.StepRunsFetchedInstruction : Prop :=
  ∀ (s : State) (i : Instr), s.progValid = true → s.prog[(s.reg .pc).toNat]? = some i →
    step s = exec i s ∧ ∀ t, exec i s = .next t → s.perform .step = (t, .stepped false)

/-- Record `k` of the stream is the instruction at index `k` (R51), and the step at PC = k runs it (R110). -/
def Obligations.StepRunsTheRecordOfTheLoadedStream : Prop :=
  ∀ (s : State) (bytes : List Byte), (s.load bytes).progValid = true →
    3 * (s.load bytes).len = bytes.length
    ∧ ∀ op a b : Byte, bytes[3 * (s.reg .pc).toNat]? = some op → bytes[3 * (s.reg .pc).toNat + 1]? = some a →
      bytes[3 * (s.reg .pc).toNat + 2]? = some b →
      ∃ i, decodeRecord { op := op, a := a, b := b } = .ok i
        ∧ (s.load bytes).prog[(s.reg .pc).toNat]? = some i
        ∧ step (s.load bytes) = exec i (s.load bytes)

/-- The refusal of a step without a valid program: the spec's own decision D15 (log 9), stated in R154. -/
def Obligations.StepWithoutProgramIsRefused : Prop :=
  ∀ s : State, s.progValid = false →
    step s = .refused .noProgram ∧ s.perform .step = (s, .refused .noProgram)

/-- An exhausted state is final for the CORE (R120, R159); the no-op step is the spec's own framing D14 (log 10). -/
def Obligations.ExhaustedRunChangesNothing : Prop :=
  ∀ s : State, s.noInstr = true →
    s.perform .step = (s, .stepped true) ∧ ∀ n, runSteps n s = .next s

/-- The three ways out of exhaustion (R120). It rests on decision D14 (log 10) for `Step`. -/
def Obligations.ExhaustionIsLeftOnlyByTheHost : Prop :=
  ∀ (s : State) (op : HostOp), s.noInstr = true →
    (s.perform op).1.fetch ((s.perform op).1.reg .pc) ≠ none →
    (∃ v : Byte, op = .writeReg 0x16 v ∧ v.toNat < s.len)
    ∨ op = .reset
    ∨ ∃ bytes, op = .load bytes ∧ s.len < (s.load bytes).len

/-- Execution raises no exception, does not fault and records nothing (R138). -/
def Obligations.ExecutionNeverFaults : Prop :=
  (∀ (i : Instr) (s : State), ∃ t, exec i s = .next t ∧ t.errCode = s.errCode ∧ t.errByte = s.errByte)
    ∧ ∀ (s : State) (index : Byte), s.len ≤ index.toNat → s.fetch index = none

/-- A step is refused only for want of a valid program (R110); past the end it is a no-op by the spec's own framing D14 (log 10). -/
def Obligations.StepOfAValidProgramAnswers : Prop :=
  ∀ s : State, s.progValid = true → ∃ t, step s = .next t

/-! ### Instructions -/

/-- `ADD %T, %S` (R82) and `ADD %T, $I` (R83): the sum modulo 256 goes to the target, then PC is incremented. Where the target is PC, the increment of the written result is the spec's own reading D12 (log 6), and a source PC is the instruction's own index (D13). -/
def Obligations.AddMeaning : Prop :=
  ∀ (t : Reg) (s : State),
    (∀ r : Reg, decodeRecord { op := 0x10, a := t.code, b := r.code } = .ok (.add t r)
      ∧ disasm (.add t r) = "ADD %" ++ regName t ++ ", %" ++ regName r
      ∧ ∃ s', exec (.add t r) s = .next s' ∧ Retires s s' t (((s.reg t).toNat + (s.reg r).toNat) % 256))
    ∧ ∀ imm : Byte, decodeRecord { op := 0x11, a := t.code, b := imm } = .ok (.addv t imm)
      ∧ disasm (.addv t imm) = "ADD %" ++ regName t ++ ", $" ++ decimal imm
      ∧ ∃ s', exec (.addv t imm) s = .next s' ∧ Retires s s' t (((s.reg t).toNat + imm.toNat) % 256)

/-- `SUB %T, %S` (R84) and `SUB %T, $I` (R85): the wrapped difference goes to the target, then PC is incremented. Where the target is PC, the increment of the written result is the spec's own reading D12 (log 6), and a source PC is the instruction's own index (D13). -/
def Obligations.SubMeaning : Prop :=
  ∀ (t : Reg) (s : State),
    (∀ r : Reg, decodeRecord { op := 0x12, a := t.code, b := r.code } = .ok (.sub t r)
      ∧ disasm (.sub t r) = "SUB %" ++ regName t ++ ", %" ++ regName r
      ∧ ∃ s', exec (.sub t r) s = .next s' ∧ Retires s s' t (((s.reg t).toNat + 256 - (s.reg r).toNat) % 256))
    ∧ ∀ imm : Byte, decodeRecord { op := 0x13, a := t.code, b := imm } = .ok (.subv t imm)
      ∧ disasm (.subv t imm) = "SUB %" ++ regName t ++ ", $" ++ decimal imm
      ∧ ∃ s', exec (.subv t imm) s = .next s' ∧ Retires s s' t (((s.reg t).toNat + 256 - imm.toNat) % 256)

/-- `LSH %T, %S` (R86) and `LSH %T, $I` (R87): the target is shifted left by the amount modulo 8, zeros coming in. The amount modulo 8 is the spec's own decision D10 (log 4). Where the target is PC, the increment of the written result is the spec's own reading D12 (log 6), and a source PC is the instruction's own index (D13). -/
def Obligations.LshMeaning : Prop :=
  ∀ (t : Reg) (s : State),
    (∀ r : Reg, decodeRecord { op := 0x20, a := t.code, b := r.code } = .ok (.lsh t r)
      ∧ disasm (.lsh t r) = "LSH %" ++ regName t ++ ", %" ++ regName r
      ∧ ∃ s', exec (.lsh t r) s = .next s' ∧ Retires s s' t (((s.reg t).toNat * 2 ^ ((s.reg r).toNat % 8)) % 256))
    ∧ ∀ imm : Byte, decodeRecord { op := 0x21, a := t.code, b := imm } = .ok (.lshv t imm)
      ∧ disasm (.lshv t imm) = "LSH %" ++ regName t ++ ", $" ++ decimal imm
      ∧ ∃ s', exec (.lshv t imm) s = .next s' ∧ Retires s s' t (((s.reg t).toNat * 2 ^ (imm.toNat % 8)) % 256)

/-- `RSH %T, %S` (R88) and `RSH %T, $I` (R89): the target is shifted right by the amount modulo 8, zeros coming in. The amount modulo 8 and the zero fill are the spec's own decisions D10 (log 4) and D11 (log 5). Where the target is PC, the increment of the written result is the spec's own reading D12 (log 6), and a source PC is the instruction's own index (D13). -/
def Obligations.RshMeaning : Prop :=
  ∀ (t : Reg) (s : State),
    (∀ r : Reg, decodeRecord { op := 0x22, a := t.code, b := r.code } = .ok (.rsh t r)
      ∧ disasm (.rsh t r) = "RSH %" ++ regName t ++ ", %" ++ regName r
      ∧ ∃ s', exec (.rsh t r) s = .next s' ∧ Retires s s' t ((s.reg t).toNat / 2 ^ ((s.reg r).toNat % 8)))
    ∧ ∀ imm : Byte, decodeRecord { op := 0x23, a := t.code, b := imm } = .ok (.rshv t imm)
      ∧ disasm (.rshv t imm) = "RSH %" ++ regName t ++ ", $" ++ decimal imm
      ∧ ∃ s', exec (.rshv t imm) s = .next s' ∧ Retires s s' t ((s.reg t).toNat / 2 ^ (imm.toNat % 8))

/-- `AND %T, %S` (R90) and `AND %T, $I` (R91): the bitwise and goes to the target, then PC is incremented. Where the target is PC, the increment of the written result is the spec's own reading D12 (log 6), and a source PC is the instruction's own index (D13). -/
def Obligations.AndMeaning : Prop :=
  ∀ (t : Reg) (s : State),
    (∀ r : Reg, decodeRecord { op := 0x30, a := t.code, b := r.code } = .ok (.and t r)
      ∧ disasm (.and t r) = "AND %" ++ regName t ++ ", %" ++ regName r
      ∧ ∃ s', exec (.and t r) s = .next s' ∧ Retires s s' t ((s.reg t).toNat &&& (s.reg r).toNat))
    ∧ ∀ imm : Byte, decodeRecord { op := 0x31, a := t.code, b := imm } = .ok (.andv t imm)
      ∧ disasm (.andv t imm) = "AND %" ++ regName t ++ ", $" ++ decimal imm
      ∧ ∃ s', exec (.andv t imm) s = .next s' ∧ Retires s s' t ((s.reg t).toNat &&& imm.toNat)

/-- `OR  %T, %S` (R92) and `OR  %T, $I` (R93): the bitwise or goes to the target, then PC is incremented. Where the target is PC, the increment of the written result is the spec's own reading D12 (log 6), and a source PC is the instruction's own index (D13). -/
def Obligations.OrMeaning : Prop :=
  ∀ (t : Reg) (s : State),
    (∀ r : Reg, decodeRecord { op := 0x32, a := t.code, b := r.code } = .ok (.or t r)
      ∧ disasm (.or t r) = "OR  %" ++ regName t ++ ", %" ++ regName r
      ∧ ∃ s', exec (.or t r) s = .next s' ∧ Retires s s' t ((s.reg t).toNat ||| (s.reg r).toNat))
    ∧ ∀ imm : Byte, decodeRecord { op := 0x33, a := t.code, b := imm } = .ok (.orv t imm)
      ∧ disasm (.orv t imm) = "OR  %" ++ regName t ++ ", $" ++ decimal imm
      ∧ ∃ s', exec (.orv t imm) s = .next s' ∧ Retires s s' t ((s.reg t).toNat ||| imm.toNat)

/-- `XOR %T, %S` (R94) and `XOR %T, $I` (R95): the bitwise exclusive or goes to the target, then PC is incremented. Where the target is PC, the increment of the written result is the spec's own reading D12 (log 6), and a source PC is the instruction's own index (D13). -/
def Obligations.XorMeaning : Prop :=
  ∀ (t : Reg) (s : State),
    (∀ r : Reg, decodeRecord { op := 0x34, a := t.code, b := r.code } = .ok (.xor t r)
      ∧ disasm (.xor t r) = "XOR %" ++ regName t ++ ", %" ++ regName r
      ∧ ∃ s', exec (.xor t r) s = .next s' ∧ Retires s s' t ((s.reg t).toNat ^^^ (s.reg r).toNat))
    ∧ ∀ imm : Byte, decodeRecord { op := 0x35, a := t.code, b := imm } = .ok (.xorv t imm)
      ∧ disasm (.xorv t imm) = "XOR %" ++ regName t ++ ", $" ++ decimal imm
      ∧ ∃ s', exec (.xorv t imm) s = .next s' ∧ Retires s s' t ((s.reg t).toNat ^^^ imm.toNat)

/-- `MOV %T, %S` (R100) and `MOV %T, $I` (R101): the source goes to the target, then PC is incremented. Where the target is PC, the increment of the written result is the spec's own reading D12 (log 6), and a source PC is the instruction's own index (D13). -/
def Obligations.MovMeaning : Prop :=
  ∀ (t : Reg) (s : State),
    (∀ r : Reg, decodeRecord { op := 0x60, a := t.code, b := r.code } = .ok (.mov t r)
      ∧ disasm (.mov t r) = "MOV %" ++ regName t ++ ", %" ++ regName r
      ∧ ∃ s', exec (.mov t r) s = .next s' ∧ Retires s s' t ((s.reg r).toNat))
    ∧ ∀ imm : Byte, decodeRecord { op := 0x61, a := t.code, b := imm } = .ok (.movv t imm)
      ∧ disasm (.movv t imm) = "MOV %" ++ regName t ++ ", $" ++ decimal imm
      ∧ ∃ s', exec (.movv t imm) s = .next s' ∧ Retires s s' t (imm.toNat)

/-- `CMP %T, %S` (R102) and `CMP %T, $I` (R103): the wrapped difference goes to CR, the target is not written, then PC is incremented. Where target or source is PC, the operand is the instruction's own index: the spec's own decision D13 (R14; log 6). -/
def Obligations.CmpMeaning : Prop :=
  ∀ (t : Reg) (s : State),
    (∀ r : Reg, decodeRecord { op := 0x40, a := t.code, b := r.code } = .ok (.cmp t r)
      ∧ disasm (.cmp t r) = "CMP %" ++ regName t ++ ", %" ++ regName r
      ∧ ∃ s', exec (.cmp t r) s = .next s' ∧ Retires s s' .cr (((s.reg t).toNat + 256 - (s.reg r).toNat) % 256))
    ∧ ∀ imm : Byte, decodeRecord { op := 0x41, a := t.code, b := imm } = .ok (.cmpv t imm)
      ∧ disasm (.cmpv t imm) = "CMP %" ++ regName t ++ ", $" ++ decimal imm
      ∧ ∃ s', exec (.cmpv t imm) s = .next s' ∧ Retires s s' .cr (((s.reg t).toNat + 256 - imm.toNat) % 256)

/-- `BR  $A` (R113): PC becomes the target. No other register, nor the store or the status, changes. -/
def Obligations.BrAlwaysJumps : Prop :=
  ∀ (a : Byte) (s : State),
    (∀ b : Byte, decodeRecord { op := 0x50, a := a, b := b } = .ok (.br a))
    ∧ disasm (.br a) = "BR  $" ++ decimal a
    ∧ ∃ s', exec (.br a) s = .next s' ∧ Jumps s s' (a.toNat)
      ∧ (s.len ≤ a.toNat → s'.fetch (s'.reg .pc) = none)

/-- `BE  $A` (R114): PC becomes the target if CR is 0x00, otherwise PC plus 1 modulo 256. No other register, nor the store or the status, changes. -/
def Obligations.BeJumpsOnZero : Prop :=
  ∀ (a : Byte) (s : State),
    (∀ b : Byte, decodeRecord { op := 0x52, a := a, b := b } = .ok (.be a))
    ∧ disasm (.be a) = "BE  $" ++ decimal a
    ∧ ∃ s', exec (.be a) s = .next s' ∧ Jumps s s' (if s.reg .cr = 0x00 then a.toNat else ((s.reg .pc).toNat + 1) % 256)

/-- `BNE $A` (R115): PC becomes the target if CR is not 0x00, otherwise PC plus 1 modulo 256. No other register, nor the store or the status, changes. -/
def Obligations.BneJumpsOnNonzero : Prop :=
  ∀ (a : Byte) (s : State),
    (∀ b : Byte, decodeRecord { op := 0x54, a := a, b := b } = .ok (.bne a))
    ∧ disasm (.bne a) = "BNE $" ++ decimal a
    ∧ ∃ s', exec (.bne a) s = .next s' ∧ Jumps s s' (if s.reg .cr ≠ 0x00 then a.toNat else ((s.reg .pc).toNat + 1) % 256)

/-- `BG  $A` (R116): PC becomes the target if CR is in 0x01..0x7F, otherwise PC plus 1 modulo 256. No other register, nor the store or the status, changes. The two's-complement reading of CR is general knowledge the spec marks so (I7; log 15). -/
def Obligations.BgJumpsOnPositive : Prop :=
  ∀ (a : Byte) (s : State),
    (∀ b : Byte, decodeRecord { op := 0x56, a := a, b := b } = .ok (.bg a))
    ∧ disasm (.bg a) = "BG  $" ++ decimal a
    ∧ ∃ s', exec (.bg a) s = .next s' ∧ Jumps s s' (if 1 ≤ (s.reg .cr).toNat ∧ (s.reg .cr).toNat ≤ 0x7F then a.toNat else ((s.reg .pc).toNat + 1) % 256)

/-- `BL  $A` (R117): PC becomes the target if CR is in 0x80..0xFF, otherwise PC plus 1 modulo 256. No other register, nor the store or the status, changes. The two's-complement reading of CR is general knowledge the spec marks so (I7; log 15). -/
def Obligations.BlJumpsOnNegative : Prop :=
  ∀ (a : Byte) (s : State),
    (∀ b : Byte, decodeRecord { op := 0x58, a := a, b := b } = .ok (.bl a))
    ∧ disasm (.bl a) = "BL  $" ++ decimal a
    ∧ ∃ s', exec (.bl a) s = .next s' ∧ Jumps s s' (if 0x80 ≤ (s.reg .cr).toNat then a.toNat else ((s.reg .pc).toNat + 1) % 256)

/-! ### The whole machine -/

/-- The four conditions (R18) under the two's-complement reading of R7, which the spec marks as general knowledge (I7; log 15). -/
def Obligations.BranchConditionsOnTheWholeByte : Prop :=
  ∀ v : Byte, (signed8 v = if v.toNat ≤ 127 then (v.toNat : Int) else (v.toNat : Int) - 256)
    ∧ (BranchKind.br.cond v = true)
    ∧ (BranchKind.be.cond v = true ↔ v.toNat = 0)
    ∧ (BranchKind.bne.cond v = true ↔ 1 ≤ v.toNat)
    ∧ (BranchKind.bg.cond v = true ↔ 1 ≤ v.toNat ∧ v.toNat ≤ 0x7F)
    ∧ (BranchKind.bl.cond v = true ↔ 0x80 ≤ v.toNat)

/-- CMP followed by a branch with no CR write between (R104, [derived] there; the signed reading is I7, log 15). `A` and `B` are the operands as the compare reads them. -/
def Obligations.CompareThenBranch : Prop :=
  ∀ (i : Instr) (A B a : Byte) (s : State),
    ((∃ t r, i = .cmp t r ∧ A = s.reg t ∧ B = s.reg r) ∨ (∃ t, i = .cmpv t B ∧ A = s.reg t)) →
    ∃ m, exec i s = .next m
      ∧ (∃ e, exec (.be a) m = .next e
          ∧ Jumps m e (if A = B then a.toNat else ((m.reg .pc).toNat + 1) % 256))
      ∧ (∃ e, exec (.bne a) m = .next e
          ∧ Jumps m e (if A ≠ B then a.toNat else ((m.reg .pc).toNat + 1) % 256))
      ∧ (∃ e, exec (.bg a) m = .next e
          ∧ Jumps m e (if 0 < (A - B).toInt then a.toNat else ((m.reg .pc).toNat + 1) % 256))
      ∧ (∃ e, exec (.bl a) m = .next e
          ∧ Jumps m e (if (A - B).toInt < 0 then a.toNat else ((m.reg .pc).toNat + 1) % 256))

/-- The frame of every instruction (R19, R45, R156, the last marked [derived] in the spec). -/
def Obligations.InstructionWritesOnlyDestinationAndPc : Prop :=
  ∀ (i : Instr) (s s' : State), exec i s = .next s' →
    (∀ r, r ≠ .pc → destination i ≠ some r → s'.reg r = s.reg r) ∧ SameStore s s' 

/-- The program counter multiplexer over all instructions (R111, R119, R122). An instruction whose target is PC is covered by the instructions' own statements (D12, log 6). -/
def Obligations.NextPcIsIncrementOrTarget : Prop :=
  ∀ (i : Instr) (s s' : State), destination i ≠ some .pc → exec i s = .next s' →
    ((s'.reg .pc).toNat = ((s.reg .pc).toNat + 1) % 256 ∨ branchTarget i = some (s'.reg .pc))
    ∧ (branchTarget i = none → s'.reg .pc = s.reg .pc + 1)
    ∧ (branchTarget i = none → s.reg .pc = 255 → s'.reg .pc = 0)

/-- The program store is immutable between loads (R45): no self-modifying code. -/
def Obligations.RunKeepsTheProgramStore : Prop :=
  ∀ (n : Nat) (s s' : State), runSteps n s = .next s' → SameStore s s' 

/-- The invariant at power-up (R29, R131; D22, log 12). -/
def Obligations.PowerUpStatusOk : Prop :=
  statusOk State.reset = true

/-- The invariant of the store and the decoder status (R23, R24, R131) is kept by every step, from every state. -/
def Obligations.StepKeepsStatusOk : Prop :=
  ∀ s s' : State, statusOk s = true → step s = .next s' → statusOk s' = true

/-- Every host operation keeps the invariant (R23, R24, R131 to R136): the errors a load reports carry a byte that really is at fault. The status after a load is D3, D4, D5 (log 3, 13). -/
def Obligations.HostOperationsKeepStatusOk : Prop :=
  ∀ (s : State) (ops : List HostOp), statusOk s = true → statusOk (s.performAll ops) = true

/-- What an instruction computes depends on its sources and PC only (R14, R112), so a host write (R46) to a register no instruction reads stays in that register. -/
def Obligations.UnreadRegisterDoesNotInterfere : Prop :=
  ∀ (n : Nat) (s a : State) (r : Reg) (v : Byte), r ≠ .pc → (∀ i ∈ s.prog, r ∉ sources i) →
    runSteps n s = .next a →
    ∃ b, runSteps n (s.setReg r v) = .next b ∧ (∀ q, q ≠ r → b.reg q = a.reg q) ∧ SameStore a b

/-- A PC value is 8 bits, so records at index 256 or above can never be fetched (R15, R16, [derived] in the spec; their acceptance is D18, log 14). -/
def Obligations.RecordsBeyond255NeverMatter : Prop :=
  ∀ (n : Nat) (s : State) (p q : List Instr) (a : State), p.take 256 = q.take 256 →
    runSteps n { s with prog := p } = .next a → runSteps n { s with prog := q } = .next { a with prog := q }

/-- One line per instruction in index order, the numbered listing prefixed with a 1-based number of at least three digits, padded with leading zeros (R73; that 1000 and more widen is I14, log 18). -/
def Obligations.ListingHasOneLinePerInstruction : Prop :=
  (∀ (prog : List Instr) (k : Nat),
      (disasmProgram prog)[k]? = prog[k]?.map disasm
      ∧ (numberedListing prog)[k]? = prog[k]?.map fun i => lineNumber (k + 1) ++ ": " ++ disasm i)
    ∧ ∀ n : Nat,
      (n < 10 → lineNumber n = "00" ++ n.repr)
      ∧ (10 ≤ n → n < 100 → lineNumber n = "0" ++ n.repr)
      ∧ (100 ≤ n → lineNumber n = n.repr)

/-- The host's register port (R46, R41); that reads have no side effect is the spec's own decision D17 (log 11). -/
def Obligations.HostReadAfterWrite : Prop :=
  ∀ (s : State) (r : Reg) (v : Byte),
    (s.perform (.writeReg r.code v)).2 = .done
    ∧ (s.perform (.writeReg r.code v)).1.perform (.readReg r.code)
        = ((s.perform (.writeReg r.code v)).1, .value v)
    ∧ (∀ q, q ≠ r → ((s.perform (.writeReg r.code v)).1.perform (.readReg q.code)).2 = .value (s.reg q))
    ∧ SameStore s (s.perform (.writeReg r.code v)).1

/-- A host access to a code that names no register: refused with no effect, the spec's own decision D16 (log 11). -/
def Obligations.HostAccessToNoRegisterIsRefused : Prop :=
  ∀ (s : State) (code v : Byte), regCodes.contains code = false →
    s.perform (.readReg code) = (s, .refused (.noSuchRegister code))
    ∧ s.perform (.writeReg code v) = (s, .refused (.noSuchRegister code))

/-! ### The register table and the listings of a loaded program -/

/-- R10's table, row by row: register, code, disassembly spelling, class, reset value. `Reg.all` holds every register, each reads the field of its own name, and the disassembly uses the spelling. -/
def Obligations.RegisterTableOfR10 : Prop :=
  Reg.all.map (fun r => (r, r.code, "%" ++ regName r, regClass r, State.reset.reg r))
      = [(.r0, 0x00, "%R0", .generalPurpose, 0x00),
        (.r1, 0x01, "%R1", .generalPurpose, 0x00),
        (.r2, 0x02, "%R2", .generalPurpose, 0x00),
        (.r3, 0x03, "%R3", .generalPurpose, 0x00),
        (.r4, 0x04, "%R4", .generalPurpose, 0x00),
        (.r5, 0x05, "%R5", .generalPurpose, 0x00),
        (.r6, 0x06, "%R6", .generalPurpose, 0x00),
        (.r7, 0x07, "%R7", .generalPurpose, 0x00),
        (.ba, 0x10, "%BA", .input, 0x00),
        (.bb, 0x11, "%BB", .input, 0x00),
        (.d0, 0x12, "%D0", .output, 0x00),
        (.d1, 0x13, "%D1", .output, 0x00),
        (.d2, 0x14, "%D2", .output, 0x00),
        (.d3, 0x15, "%D3", .output, 0x00),
        (.pc, 0x16, "%PC", .programCounter, 0x00),
        (.cr, 0x17, "%CR", .comparisonFlag, 0x00)]
    ∧ (∀ r : Reg, r ∈ Reg.all)
    ∧ (∀ s : State, Reg.all.map s.reg =
        [s.regs.r0, s.regs.r1, s.regs.r2, s.regs.r3, s.regs.r4, s.regs.r5, s.regs.r6, s.regs.r7, s.regs.ba, s.regs.bb,
         s.regs.d0, s.regs.d1, s.regs.d2, s.regs.d3, s.regs.pc, s.regs.cr])
    ∧ ∀ r : Reg, disasm (.mov r r) = "MOV " ++ ("%" ++ regName r) ++ ", " ++ ("%" ++ regName r)

/-- What the host prints of the loaded program (R73, R146, D29, log 18). That nothing is printed while `prog_valid = 0` is the model's choice (DESIGN CHOICE, log 21). -/
def Obligations.ListingOfTheLoadedProgram : Prop :=
  ∀ s : State,
    (s.progValid = true →
      s.listing = some ("\n".intercalate (s.prog.map disasm))
      ∧ s.numbered = some ("\n".intercalate (numberedListing s.prog)))
    ∧ (s.progValid = false → s.listing = none ∧ s.numbered = none)
    ∧ ∀ bytes e, decodeStream bytes = .error e → (s.load bytes).listing = none ∧ (s.load bytes).numbered = none
end

