-- ==== Sys2Proof/Laws/State.lean ====
section
/-! SUPPORT. One lemma per field per update of the state, and the read-after-write laws of the register file. -/

namespace Sys2Proof.Machine

variable (s : State) (r q : Reg) (v : Byte) (p : List Instr) (e : DecodeError)

@[simp] theorem setReg_prog : (s.setReg r v).prog = s.prog := rfl
@[simp] theorem setReg_progValid : (s.setReg r v).progValid = s.progValid := rfl
@[simp] theorem setReg_errCode : (s.setReg r v).errCode = s.errCode := rfl
@[simp] theorem setReg_errByte : (s.setReg r v).errByte = s.errByte := rfl

@[simp] theorem nextPc_prog (taken : Option Byte) : (s.nextPc taken).prog = s.prog := rfl
@[simp] theorem nextPc_progValid (taken : Option Byte) : (s.nextPc taken).progValid = s.progValid := rfl
@[simp] theorem nextPc_errCode (taken : Option Byte) : (s.nextPc taken).errCode = s.errCode := rfl
@[simp] theorem nextPc_errByte (taken : Option Byte) : (s.nextPc taken).errByte = s.errByte := rfl

@[simp] theorem raise_prog : (s.raise e).prog = s.prog := rfl
@[simp] theorem raise_progValid : (s.raise e).progValid = false := rfl
@[simp] theorem raise_errCode : (s.raise e).errCode = e.code := rfl
@[simp] theorem raise_errByte : (s.raise e).errByte = e.payload := rfl
@[simp] theorem raise_regs : (s.raise e).regs = s.regs := rfl
@[simp] theorem raise_reg : (s.raise e).reg r = s.reg r := rfl

@[simp] theorem installProgram_prog : (s.installProgram p).prog = p := rfl
@[simp] theorem installProgram_progValid : (s.installProgram p).progValid = true := rfl
@[simp] theorem installProgram_errCode : (s.installProgram p).errCode = 0 := rfl
@[simp] theorem installProgram_errByte : (s.installProgram p).errByte = 0 := rfl
@[simp] theorem installProgram_regs : (s.installProgram p).regs = s.regs := rfl
@[simp] theorem installProgram_reg : (s.installProgram p).reg r = s.reg r := rfl

@[simp] theorem raise_loadedProgram : (s.raise e).loadedProgram = none := rfl
@[simp] theorem installProgram_loadedProgram : (s.installProgram p).loadedProgram = some p := rfl
@[simp] theorem setReg_loadedProgram : (s.setReg r v).loadedProgram = s.loadedProgram := rfl
@[simp] theorem hostReset_loadedProgram : s.hostReset.loadedProgram = s.loadedProgram := rfl

@[simp] theorem hostReset_prog : s.hostReset.prog = s.prog := rfl
@[simp] theorem hostReset_progValid : s.hostReset.progValid = s.progValid := rfl
@[simp] theorem hostReset_errCode : s.hostReset.errCode = s.errCode := rfl
@[simp] theorem hostReset_errByte : s.hostReset.errByte = s.errByte := rfl
@[simp] theorem hostReset_regs : s.hostReset.regs = zeroRegs := rfl

/-- Reading a register of the file after a write. -/
theorem RegFile.get_set (f : RegFile) : (f.set r v).get q = if q = r then v else f.get q := by
  cases r <;> cases q <;> rfl

/-- Reading a register after a write: the written value there, the old value elsewhere. -/
theorem reg_setReg : (s.setReg r v).reg q = if q = r then v else s.reg q := RegFile.get_set r q v s.regs

@[simp] theorem reg_setReg_same : (s.setReg r v).reg r = v := by simp [reg_setReg]

@[simp] theorem reg_setReg_other (h : q ≠ r) : (s.setReg r v).reg q = s.reg q := by simp [reg_setReg, h]

/-- Two register files that read alike are equal. -/
theorem RegFile.ext_get {f g : RegFile} (h : ∀ x, f.get x = g.get x) : f = g := by
  obtain ⟨⟩ := f
  obtain ⟨⟩ := g
  have h0 := h .r0; have h1 := h .r1; have h2 := h .r2; have h3 := h .r3
  have h4 := h .r4; have h5 := h .r5; have h6 := h .r6; have h7 := h .r7
  have h8 := h .ba; have h9 := h .bb; have h10 := h .d0; have h11 := h .d1
  have h12 := h .d2; have h13 := h .d3; have h14 := h .pc; have h15 := h .cr
  simp only [RegFile.get] at *
  subst_vars
  rfl

/-- Two states that read alike and share store and status are equal. -/
theorem state_eq_of_reg {a b : State} (hr : ∀ x, a.reg x = b.reg x) (hs : SameStore a b) : a = b := by
  obtain ⟨ra, pa, va, ca, ba⟩ := a
  obtain ⟨rb, pb, vb, cb, bb⟩ := b
  obtain ⟨rfl, rfl, rfl, rfl⟩ := hs
  have : ra = rb := RegFile.ext_get hr
  subst this
  rfl

@[simp] theorem zeroRegs_get : zeroRegs.get r = 0 := by cases r <;> rfl

@[simp] theorem hostReset_reg : s.hostReset.reg r = 0 := zeroRegs_get r

theorem SameStore.refl : SameStore s s := ⟨rfl, rfl, rfl, rfl⟩

theorem SameStore.trans {a b c : State} (h : SameStore a b) (k : SameStore b c) : SameStore a c :=
  ⟨k.1.trans h.1, k.2.1.trans h.2.1, k.2.2.1.trans h.2.2.1, k.2.2.2.trans h.2.2.2⟩

end Sys2Proof.Machine
end

