-- ==== Sys2Proof/Laws/Ops.lean ====
section
/-! SUPPORT. One lemma per shared operation that says once everything it can do. -/

namespace Sys2Proof.Machine

/-- What the PC update reads back as: the multiplexer's output in PC, every other register as before. -/
theorem reg_nextPc (s : State) (taken : Option Byte) (r : Reg) :
    (s.nextPc taken).reg r = if r = .pc then pcMux taken (s.reg .pc) else s.reg r := reg_setReg ..

/-- The PC update keeps store and status. -/
theorem nextPc_sameStore (s : State) (taken : Option Byte) : SameStore s (s.nextPc taken) := ⟨rfl, rfl, rfl, rfl⟩

/-- The default increment changes PC only. -/
theorem nextPc_none_jumps (s : State) : Jumps s (s.nextPc none) (((s.reg .pc).toNat + 1) % 256) := by
  refine ⟨?_, fun r h => by simp [reg_nextPc, h], nextPc_sameStore s none⟩
  simp [reg_nextPc, pcMux, BitVec.toNat_add]

/-- A taken branch changes PC only. -/
theorem nextPc_some_jumps (s : State) (a : Byte) : Jumps s (s.nextPc (some a)) a.toNat :=
  ⟨by simp [reg_nextPc, pcMux], fun r h => by simp [reg_nextPc, h], nextPc_sameStore s _⟩

/-- On the machine the spec describes, the default increment follows every retired result (D12). -/
theorem retire_machine (s : State) (t : Reg) (v : Byte) : s.retire machineConfig t v = (s.setReg t v).nextPc none := by
  simp [State.retire, machineConfig]

/-- Everything a retired result does. -/
theorem retire_retires (s : State) (t : Reg) (v : Byte) : Retires s (s.retire machineConfig t v) t v.toNat := by
  rw [retire_machine]
  refine ⟨fun h => ?_, fun h => ?_, fun r h h' => ?_, rfl, rfl, rfl, rfl⟩
  · have h' : Reg.pc ≠ t := fun k => h k.symm
    simp [reg_nextPc, h, h', pcMux, BitVec.toNat_add]
  · subst h
    simp [reg_nextPc, pcMux, BitVec.toNat_add]
  · simp [reg_nextPc, h, h']

/-- An arithmetic, shift or bitwise instruction always has a next state: the retired ALU result. -/
theorem execAluWith_next (op : AluOp) (t : Reg) (src : Operand) (s : State) :
    ∃ s', execAluWith machineConfig op t src s = .next s'
      ∧ Retires s s' t (alu machineConfig op (s.reg t) (s.operand src)).toNat :=
  ⟨_, rfl, retire_retires s t _⟩

/-- A move always has a next state: the retired source. -/
theorem execMovWith_next (t : Reg) (src : Operand) (s : State) :
    ∃ s', execMovWith machineConfig t src s = .next s' ∧ Retires s s' t (s.operand src).toNat :=
  ⟨_, rfl, retire_retires s t _⟩

/-- A compare always has a next state: the wrapped difference retired to CR. -/
theorem execCmpWith_next (t : Reg) (src : Operand) (s : State) :
    ∃ s', execCmpWith machineConfig t src s = .next s'
      ∧ Retires s s' .cr (alu machineConfig .sub (s.reg t) (s.operand src)).toNat :=
  ⟨_, rfl, retire_retires s .cr _⟩

/-- A branch always has a next state: PC the target where the condition holds, otherwise incremented. -/
theorem execBranch_next (kind : BranchKind) (a : Byte) (s : State) :
    ∃ s', execBranch kind a s = .next s'
      ∧ Jumps s s' (if kind.cond (s.reg .cr) then a.toNat else ((s.reg .pc).toNat + 1) % 256) := by
  refine ⟨_, rfl, ?_⟩
  by_cases h : kind.cond (s.reg .cr)
  · simpa [h] using nextPc_some_jumps s a
  · simpa [h] using nextPc_none_jumps s

/-- Every instruction has a next state: a value retired to its destination, or, where it has none, a PC update that is the
default increment or the branch's target. -/
theorem exec_cases (i : Instr) (s : State) :
    (∃ t v, destination i = some t ∧ branchTarget i = none ∧ exec i s = .next (s.retire machineConfig t v))
      ∨ (destination i = none
          ∧ ∃ taken, exec i s = .next (s.nextPc taken) ∧ ∀ a, taken = some a → branchTarget i = some a) := by
  have hb : ∀ (k : BranchKind) (target a : Byte),
      (if k.cond (s.reg .cr) then some target else none) = some a → some target = some a := by
    intro k target a h
    split at h
    · exact h
    · exact absurd h (by simp)
  cases i
  case br a => exact .inr ⟨rfl, _, rfl, fun b => hb .br a b⟩
  case be a => exact .inr ⟨rfl, _, rfl, fun b => hb .be a b⟩
  case bne a => exact .inr ⟨rfl, _, rfl, fun b => hb .bne a b⟩
  case bg a => exact .inr ⟨rfl, _, rfl, fun b => hb .bg a b⟩
  case bl a => exact .inr ⟨rfl, _, rfl, fun b => hb .bl a b⟩
  all_goals exact .inl ⟨_, _, rfl, rfl, rfl⟩

/-- The length check in the spec's words (R132). -/
theorem decodeStream_eq (bytes : List Byte) :
    decodeStream bytes =
      if bytes.length = 0 ∨ bytes.length % 3 ≠ 0 then .error .invalidProgram else decodeRecords bytes := by
  by_cases h : bytes.length = 0 ∨ bytes.length % 3 ≠ 0
  · have : streamLengthOk bytes = false := by
      rcases h with h | h <;> simp [streamLengthOk, h]
    rw [decodeStream, this, if_pos h]
    rfl
  · have : streamLengthOk bytes = true := by
      rw [not_or, not_not] at h
      simpa [streamLengthOk] using h
    rw [decodeStream, this, if_neg h]
    rfl

/-- A load has two cases: the decoded program installed, or the decode error raised. -/
theorem load_cases (s : State) (bytes : List Byte) :
    (∃ prog, decodeStream bytes = .ok prog ∧ s.load bytes = s.installProgram prog)
      ∨ (∃ e, decodeStream bytes = .error e ∧ s.load bytes = s.raise e) := by
  cases h : decodeStream bytes with
  | ok prog => exact .inl ⟨prog, rfl, by simp [State.load, h]⟩
  | error e => exact .inr ⟨e, rfl, by simp [State.load, h]⟩

/-- A step has three cases: refused without a program, nothing to fetch, or the fetched instruction. -/
theorem step_cases (s : State) :
    (s.progValid = false ∧ step s = .refused .noProgram)
      ∨ (s.progValid = true ∧ s.fetch (s.reg .pc) = none ∧ step s = .next s)
      ∨ (s.progValid = true ∧ ∃ i, s.fetch (s.reg .pc) = some i ∧ step s = exec i s) := by
  cases hv : s.progValid with
  | false => exact .inl ⟨rfl, by simp [step, hv]⟩
  | true =>
    cases hf : s.fetch (s.reg .pc) with
    | none => exact .inr (.inl ⟨rfl, rfl, by simp [step, hv, hf]⟩)
    | some i => exact .inr (.inr ⟨rfl, i, rfl, by simp [step, hv, hf]⟩)

/-- One more step of the host's run, on any machine. -/
theorem core_run_succ (M : Host.Core) (n : Nat) (s : M.State) :
    M.run (n + 1) s =
      match M.step s with
      | .next s' => M.run n s'
      | .fault r => .fault r
      | .refused r => .refused r := rfl

/-- A run of the claims' terms is a run of the host's. -/
theorem runSteps_eq_core_run (n : Nat) (s : State) : runSteps n s = Host.Core.run Sys2Proof.core n s := by
  induction n generalizing s with
  | zero => rfl
  | succ n ih =>
    refine Eq.trans ?_ (core_run_succ Sys2Proof.core n s).symm
    rw [runSteps]
    cases h : step s with
    | next s' =>
      have h' : Sys2Proof.core.step s = .next s' := h
      rw [h']
      exact ih s'
    | fault r => exact nomatch r
    | refused r =>
      have h' : Sys2Proof.core.step s = .refused r := h
      rw [h']
      rfl

end Sys2Proof.Machine
end

