-- ==== Sys2Proof/Laws/PerInstr.lean ====
section
/-! SUPPORT. Per-instruction families: a statement about an instruction as syntax, and one lemma per constructor. -/

/-- The record an instruction encodes to is one the well-formedness check of the spec's lists accepts (R57 to R59, R70). -/
def Sys2Proof.Laws.EncodeWellFormed.Statement (i : Sys2Proof.Instr) : Prop :=
  (Sys2Proof.encode i).wellFormed = true

theorem Sys2Proof.Laws.EncodeWellFormed.add (t s : Sys2Proof.Reg) :
    Sys2Proof.Laws.EncodeWellFormed.Statement (.add t s) := by cases t <;> cases s <;> rfl

theorem Sys2Proof.Laws.EncodeWellFormed.addv (t : Sys2Proof.Reg) (imm : Sys2Proof.Byte) :
    Sys2Proof.Laws.EncodeWellFormed.Statement (.addv t imm) := by cases t <;> rfl

theorem Sys2Proof.Laws.EncodeWellFormed.sub (t s : Sys2Proof.Reg) :
    Sys2Proof.Laws.EncodeWellFormed.Statement (.sub t s) := by cases t <;> cases s <;> rfl

theorem Sys2Proof.Laws.EncodeWellFormed.subv (t : Sys2Proof.Reg) (imm : Sys2Proof.Byte) :
    Sys2Proof.Laws.EncodeWellFormed.Statement (.subv t imm) := by cases t <;> rfl

theorem Sys2Proof.Laws.EncodeWellFormed.lsh (t s : Sys2Proof.Reg) :
    Sys2Proof.Laws.EncodeWellFormed.Statement (.lsh t s) := by cases t <;> cases s <;> rfl

theorem Sys2Proof.Laws.EncodeWellFormed.lshv (t : Sys2Proof.Reg) (imm : Sys2Proof.Byte) :
    Sys2Proof.Laws.EncodeWellFormed.Statement (.lshv t imm) := by cases t <;> rfl

theorem Sys2Proof.Laws.EncodeWellFormed.rsh (t s : Sys2Proof.Reg) :
    Sys2Proof.Laws.EncodeWellFormed.Statement (.rsh t s) := by cases t <;> cases s <;> rfl

theorem Sys2Proof.Laws.EncodeWellFormed.rshv (t : Sys2Proof.Reg) (imm : Sys2Proof.Byte) :
    Sys2Proof.Laws.EncodeWellFormed.Statement (.rshv t imm) := by cases t <;> rfl

theorem Sys2Proof.Laws.EncodeWellFormed.and (t s : Sys2Proof.Reg) :
    Sys2Proof.Laws.EncodeWellFormed.Statement (.and t s) := by cases t <;> cases s <;> rfl

theorem Sys2Proof.Laws.EncodeWellFormed.andv (t : Sys2Proof.Reg) (imm : Sys2Proof.Byte) :
    Sys2Proof.Laws.EncodeWellFormed.Statement (.andv t imm) := by cases t <;> rfl

theorem Sys2Proof.Laws.EncodeWellFormed.or (t s : Sys2Proof.Reg) :
    Sys2Proof.Laws.EncodeWellFormed.Statement (.or t s) := by cases t <;> cases s <;> rfl

theorem Sys2Proof.Laws.EncodeWellFormed.orv (t : Sys2Proof.Reg) (imm : Sys2Proof.Byte) :
    Sys2Proof.Laws.EncodeWellFormed.Statement (.orv t imm) := by cases t <;> rfl

theorem Sys2Proof.Laws.EncodeWellFormed.xor (t s : Sys2Proof.Reg) :
    Sys2Proof.Laws.EncodeWellFormed.Statement (.xor t s) := by cases t <;> cases s <;> rfl

theorem Sys2Proof.Laws.EncodeWellFormed.xorv (t : Sys2Proof.Reg) (imm : Sys2Proof.Byte) :
    Sys2Proof.Laws.EncodeWellFormed.Statement (.xorv t imm) := by cases t <;> rfl

theorem Sys2Proof.Laws.EncodeWellFormed.cmp (t s : Sys2Proof.Reg) :
    Sys2Proof.Laws.EncodeWellFormed.Statement (.cmp t s) := by cases t <;> cases s <;> rfl

theorem Sys2Proof.Laws.EncodeWellFormed.cmpv (t : Sys2Proof.Reg) (imm : Sys2Proof.Byte) :
    Sys2Proof.Laws.EncodeWellFormed.Statement (.cmpv t imm) := by cases t <;> rfl

theorem Sys2Proof.Laws.EncodeWellFormed.mov (t s : Sys2Proof.Reg) :
    Sys2Proof.Laws.EncodeWellFormed.Statement (.mov t s) := by cases t <;> cases s <;> rfl

theorem Sys2Proof.Laws.EncodeWellFormed.movv (t : Sys2Proof.Reg) (imm : Sys2Proof.Byte) :
    Sys2Proof.Laws.EncodeWellFormed.Statement (.movv t imm) := by cases t <;> rfl

theorem Sys2Proof.Laws.EncodeWellFormed.br (a : Sys2Proof.Byte) :
    Sys2Proof.Laws.EncodeWellFormed.Statement (.br a) := rfl

theorem Sys2Proof.Laws.EncodeWellFormed.be (a : Sys2Proof.Byte) :
    Sys2Proof.Laws.EncodeWellFormed.Statement (.be a) := rfl

theorem Sys2Proof.Laws.EncodeWellFormed.bne (a : Sys2Proof.Byte) :
    Sys2Proof.Laws.EncodeWellFormed.Statement (.bne a) := rfl

theorem Sys2Proof.Laws.EncodeWellFormed.bg (a : Sys2Proof.Byte) :
    Sys2Proof.Laws.EncodeWellFormed.Statement (.bg a) := rfl

theorem Sys2Proof.Laws.EncodeWellFormed.bl (a : Sys2Proof.Byte) :
    Sys2Proof.Laws.EncodeWellFormed.Statement (.bl a) := rfl
end

