-- ==== Sys2Proof/Tests/Slice0.lean ====
section
/-! SUPPORT. Small tests of one operation each, and a witness for the hypotheses of each statement. Expected values are those
of spec/95_test_vectors.md (W1, V1 to V6) unless a comment says otherwise. -/

namespace Sys2Proof.Machine.Tests

open Sys2Proof Sys2Proof.Machine

/-- The power-up state with some registers written. -/
def start (regs : List (Reg × Byte)) : State := regs.foldl (fun s p => s.setReg p.1 p.2) State.reset

/-- A register after an outcome; none where there is no next state. -/
def regAfter (o : Host.Outcome State Fault Refusal) (r : Reg) : Option Byte :=
  match o with
  | .next s => some (s.reg r)
  | _ => none

/-- A state with a valid program. -/
def loaded (prog : List Instr) : State := State.reset.installProgram prog

/-! ### Well-formedness: each check refuses an ill-formed term -/

theorem test_wf_refuses_unlisted_branch_opcode : Record.wellFormed ⟨0x5A, 0x00, 0x00⟩ = false := by decide
theorem test_wf_refuses_unlisted_ri_opcode : Record.wellFormed ⟨0x15, 0x00, 0x00⟩ = false := by decide
theorem test_wf_refuses_unlisted_rr_opcode : Record.wellFormed ⟨0x14, 0x00, 0x00⟩ = false := by decide
theorem test_wf_refuses_ri_bad_target : Record.wellFormed ⟨0x11, 0x18, 0x00⟩ = false := by decide
theorem test_wf_refuses_rr_bad_target : Record.wellFormed ⟨0x10, 0x08, 0x00⟩ = false := by decide
theorem test_wf_refuses_rr_bad_source : Record.wellFormed ⟨0x10, 0x00, 0x0F⟩ = false := by decide
theorem test_wf_accepts_branch_any_bytes : Record.wellFormed ⟨0x50, 0xFF, 0xFF⟩ = true := by decide
theorem test_wf_refuses_empty_stream : streamLengthOk [] = false := by decide
theorem test_wf_refuses_ragged_stream : streamLengthOk [0x10, 0x00, 0x00, 0xFF] = false := by decide
theorem test_wf_refuses_empty_program : programOk [] = false := by decide

/-! ### Decoding and disassembly, one word per instruction (95 V6; table words are byte 0 in bits 7..0) -/

theorem test_decode_add :
    decodeTableWord 24 0x020110 = some (.add .r1 .r2) ∧ disasm (.add .r1 .r2) = "ADD %R1, %R2" := by decide
theorem test_decode_addv :
    decodeTableWord 24 0xC80111 = some (.addv .r1 0xC8) ∧ disasm (.addv .r1 0xC8) = "ADD %R1, $200" := by decide
theorem test_decode_sub :
    decodeTableWord 24 0x040312 = some (.sub .r3 .r4) ∧ disasm (.sub .r3 .r4) = "SUB %R3, %R4" := by decide
theorem test_decode_subv :
    decodeTableWord 24 0x000313 = some (.subv .r3 0) ∧ disasm (.subv .r3 0) = "SUB %R3, $0" := by decide
theorem test_decode_lsh :
    decodeTableWord 24 0x060520 = some (.lsh .r5 .r6) ∧ disasm (.lsh .r5 .r6) = "LSH %R5, %R6" := by decide
theorem test_decode_lshv :
    decodeTableWord 24 0x070521 = some (.lshv .r5 7) ∧ disasm (.lshv .r5 7) = "LSH %R5, $7" := by decide
theorem test_decode_rsh :
    decodeTableWord 24 0x100722 = some (.rsh .r7 .ba) ∧ disasm (.rsh .r7 .ba) = "RSH %R7, %BA" := by decide
theorem test_decode_rshv :
    decodeTableWord 24 0x030723 = some (.rshv .r7 3) ∧ disasm (.rshv .r7 3) = "RSH %R7, $3" := by decide
theorem test_decode_and :
    decodeTableWord 24 0x121130 = some (.and .bb .d0) ∧ disasm (.and .bb .d0) = "AND %BB, %D0" := by decide
theorem test_decode_andv :
    decodeTableWord 24 0x0F1131 = some (.andv .bb 0x0F) ∧ disasm (.andv .bb 0x0F) = "AND %BB, $15" := by decide
theorem test_decode_or :
    decodeTableWord 24 0x141332 = some (.or .d1 .d2) ∧ disasm (.or .d1 .d2) = "OR  %D1, %D2" := by decide
theorem test_decode_orv :
    decodeTableWord 24 0x801333 = some (.orv .d1 0x80) ∧ disasm (.orv .d1 0x80) = "OR  %D1, $128" := by decide
theorem test_decode_xor :
    decodeTableWord 24 0x161534 = some (.xor .d3 .pc) ∧ disasm (.xor .d3 .pc) = "XOR %D3, %PC" := by decide
theorem test_decode_xorv :
    decodeTableWord 24 0xFF1535 = some (.xorv .d3 0xFF) ∧ disasm (.xorv .d3 0xFF) = "XOR %D3, $255" := by decide
theorem test_decode_cmp :
    decodeTableWord 24 0x001740 = some (.cmp .cr .r0) ∧ disasm (.cmp .cr .r0) = "CMP %CR, %R0" := by decide
theorem test_decode_cmpv :
    decodeTableWord 24 0x641741 = some (.cmpv .cr 0x64) ∧ disasm (.cmpv .cr 0x64) = "CMP %CR, $100" := by decide
theorem test_decode_mov :
    decodeTableWord 24 0x171660 = some (.mov .pc .cr) ∧ disasm (.mov .pc .cr) = "MOV %PC, %CR" := by decide
theorem test_decode_movv :
    decodeTableWord 24 0x091261 = some (.movv .d0 9) ∧ disasm (.movv .d0 9) = "MOV %D0, $9" := by decide
theorem test_decode_br :
    decodeTableWord 24 0x000050 = some (.br 0) ∧ disasm (.br 0) = "BR  $0" := by decide
theorem test_decode_be :
    decodeTableWord 24 0x000A52 = some (.be 10) ∧ disasm (.be 10) = "BE  $10" := by decide
theorem test_decode_bne :
    decodeTableWord 24 0x006354 = some (.bne 99) ∧ disasm (.bne 99) = "BNE $99" := by decide
theorem test_decode_bg :
    decodeTableWord 24 0x006456 = some (.bg 100) ∧ disasm (.bg 100) = "BG  $100" := by decide
theorem test_decode_bl :
    decodeTableWord 24 0x07FF58 = some (.bl 255) ∧ disasm (.bl 255) = "BL  $255" := by decide

/-- A table word of the opcode byte alone: the operand bytes above it are 0. -/
theorem test_decode_short_word : decodeTableWord 8 0x58 = some (.bl 0) := by decide

/-- A word wider than one record is a stream of a bad length. -/
theorem test_decode_wide_word : decodeTableWord 32 0x10 = none := by decide

/-! ### Decode errors (95 V1) -/

theorem test_error_lengths : decodeStream [] = .error .invalidProgram
    ∧ decodeStream [0x10, 0x00] = .error .invalidProgram
    ∧ decodeStream [0x10, 0, 0, 0xFF, 0, 0, 0] = .error .invalidProgram := by decide

theorem test_error_register_before_opcode :
    decodeRecord ⟨0x02, 0x08, 0x00⟩ = .error (.invalidRegisterAddress 0x08)
    ∧ decodeRecord ⟨0x15, 0x18, 0x00⟩ = .error (.invalidRegisterAddress 0x18) := by decide

theorem test_error_a_before_b : decodeRecord ⟨0x10, 0x20, 0x30⟩ = .error (.invalidRegisterAddress 0x20) := by decide

theorem test_error_branch_space :
    decodeRecord ⟨0x51, 0, 0⟩ = .error (.invalidBranchOpCode 0x51)
    ∧ decodeRecord ⟨0x72, 0, 0⟩ = .error (.invalidBranchOpCode 0x72)
    ∧ decodeRecord ⟨0xD0, 0, 0⟩ = .error (.invalidBranchOpCode 0xD0)
    ∧ decodeRecord ⟨0xFF, 0, 0⟩ = .error (.invalidBranchOpCode 0xFF) := by decide

theorem test_error_ri_space : decodeRecord ⟨0x01, 0, 0⟩ = .error (.invalidSrcValueOpCode 0x01)
    ∧ decodeRecord ⟨0x15, 0, 0⟩ = .error (.invalidSrcValueOpCode 0x15) := by decide

theorem test_error_rr_space : decodeRecord ⟨0x00, 0, 0⟩ = .error (.invalidOpCode 0x00)
    ∧ decodeRecord ⟨0x62, 0, 0⟩ = .error (.invalidOpCode 0x62) := by decide

theorem test_error_first_record_wins :
    decodeStream [0x14, 0, 0, 0x10, 0x09, 0] = .error (.invalidOpCode 0x14)
    ∧ decodeStream [0x10, 0x09, 0, 0x14, 0, 0] = .error (.invalidRegisterAddress 0x09) := by decide

/-- The other value of BRANCH_DISPATCH_MASK (D6): a match on the low nibble takes 0x72 for BE. -/
theorem test_branch_mask_parameter :
    decodeRecordWith { machineConfig with branchDispatchMask := 0x0F } ⟨0x72, 9, 0⟩ = .ok (.be 9) := by decide

/-! ### One instruction (95 V2, V3, V4) -/

theorem test_exec_add_wraps :
    regAfter (exec (.add .r1 .r2) (start [(.r1, 0xC8), (.r2, 0x64)])) .r1 = some 0x2C
    ∧ regAfter (exec (.add .r1 .r2) (start [(.r1, 0xC8), (.r2, 0x64)])) .pc = some 1
    ∧ regAfter (exec (.add .r1 .r2) (start [(.r1, 0xC8), (.r2, 0x64)])) .cr = some 0 := by decide
theorem test_exec_add_reads_own_index :
    regAfter (exec (.add .r0 .pc) (start [(.r0, 5), (.pc, 3)])) .r0 = some 8
    ∧ regAfter (exec (.add .r0 .pc) (start [(.r0, 5), (.pc, 3)])) .pc = some 4 := by decide
theorem test_exec_addv_to_cr :
    regAfter (exec (.addv .cr 1) (start [(.cr, 0xFF)])) .cr = some 0
    ∧ regAfter (exec (.addv .cr 1) (start [(.cr, 0xFF)])) .pc = some 1 := by decide
theorem test_exec_addv_to_pc :
    regAfter (exec (.addv .pc 0xFF) (start [(.pc, 5)])) .pc = some 5 := by decide
theorem test_exec_sub_wraps :
    regAfter (exec (.sub .r1 .r2) (start [(.r1, 0x10), (.r2, 0x20)])) .r1 = some 0xF0
    ∧ regAfter (exec (.sub .r1 .r2) (start [(.r1, 0x10), (.r2, 0x20)])) .r2 = some 0x20 := by decide
theorem test_exec_subv_input_register :
    regAfter (exec (.subv .ba 5) (start [(.ba, 3)])) .ba = some 0xFE
    ∧ regAfter (exec (.subv .ba 5) (start [(.ba, 3)])) .pc = some 1 := by decide
theorem test_exec_lsh_drops_bit_7 :
    regAfter (exec (.lsh .r2 .r3) (start [(.r2, 0x81), (.r3, 1)])) .r2 = some 2 := by decide
theorem test_exec_lsh_amount_8 :
    regAfter (exec (.lsh .r2 .r3) (start [(.r2, 1), (.r3, 8)])) .r2 = some 1 := by decide
theorem test_exec_lshv_amount_255 :
    regAfter (exec (.lshv .r2 0xFF) (start [(.r2, 3)])) .r2 = some 0x80 := by decide
theorem test_exec_rsh_zero_fill :
    regAfter (exec (.rsh .r4 .r5) (start [(.r4, 0xFF), (.r5, 1)])) .r4 = some 0x7F := by decide
theorem test_exec_rshv_amount_132 :
    regAfter (exec (.rshv .r4 0x84) (start [(.r4, 0xF0)])) .r4 = some 0x0F := by decide
theorem test_exec_and :
    regAfter (exec (.and .r0 .r1) (start [(.r0, 0xF0), (.r1, 0x3C)])) .r0 = some 0x30
    ∧ regAfter (exec (.and .r0 .r1) (start [(.r0, 0xF0), (.r1, 0x3C)])) .r1 = some 0x3C := by decide
theorem test_exec_andv :
    regAfter (exec (.andv .r5 0x3C) (start [(.r5, 0xF0)])) .r5 = some 0x30 := by decide
theorem test_exec_or :
    regAfter (exec (.or .r0 .r1) (start [(.r0, 0xF0), (.r1, 0x0F)])) .r0 = some 0xFF := by decide
theorem test_exec_orv :
    regAfter (exec (.orv .r0 0x80) (start [(.r0, 1)])) .r0 = some 0x81 := by decide
theorem test_exec_xor :
    regAfter (exec (.xor .r0 .r1) (start [(.r0, 0xFF), (.r1, 0xAA)])) .r0 = some 0x55 := by decide
theorem test_exec_xorv :
    regAfter (exec (.xorv .r5 0xFF) (start [(.r5, 0xF0)])) .r5 = some 0x0F := by decide
theorem test_exec_cmp_keeps_target :
    regAfter (exec (.cmp .r0 .r1) (start [(.r0, 7), (.r1, 9)])) .cr = some 0xFE
    ∧ regAfter (exec (.cmp .r0 .r1) (start [(.r0, 7), (.r1, 9)])) .r0 = some 7
    ∧ regAfter (exec (.cmp .r0 .r1) (start [(.r0, 7), (.r1, 9)])) .pc = some 1 := by decide
theorem test_exec_cmpv_old_cr :
    regAfter (exec (.cmpv .cr 1) (start [(.cr, 5)])) .cr = some 4
    ∧ regAfter (exec (.cmpv .cr 1) (start [(.cr, 5)])) .pc = some 1 := by decide
theorem test_exec_mov_own_index :
    regAfter (exec (.mov .r0 .pc) (start [(.pc, 7)])) .r0 = some 7
    ∧ regAfter (exec (.mov .r0 .pc) (start [(.pc, 7)])) .pc = some 8 := by decide
theorem test_exec_movv_to_pc :
    regAfter (exec (.movv .pc 0x0A) (start [])) .pc = some 0x0B := by decide
theorem test_exec_movv_to_pc_255 :
    regAfter (exec (.movv .pc 0xFF) (start [(.pc, 9)])) .pc = some 0 := by decide
theorem test_exec_br :
    regAfter (exec (.br 0x0C) (start [(.pc, 3), (.cr, 0x80)])) .pc = some 0x0C
    ∧ regAfter (exec (.br 0x0C) (start [(.pc, 3), (.cr, 0x80)])) .cr = some 0x80 := by decide
theorem test_exec_be_taken :
    regAfter (exec (.be 0x0C) (start [(.pc, 3)])) .pc = some 0x0C := by decide
theorem test_exec_be_untaken_at_255 :
    regAfter (exec (.be 5) (start [(.pc, 255), (.cr, 1)])) .pc = some 0 := by decide
theorem test_exec_bne_taken :
    regAfter (exec (.bne 0x0C) (start [(.pc, 3), (.cr, 0x80)])) .pc = some 0x0C := by decide
theorem test_exec_bne_untaken :
    regAfter (exec (.bne 0x0C) (start [(.pc, 3)])) .pc = some 4 := by decide
theorem test_exec_bg_taken :
    regAfter (exec (.bg 0x0C) (start [(.pc, 3), (.cr, 0x7F)])) .pc = some 0x0C := by decide
theorem test_exec_bg_untaken :
    regAfter (exec (.bg 0x0C) (start [(.pc, 3), (.cr, 0x80)])) .pc = some 4 := by decide
theorem test_exec_bl_taken :
    regAfter (exec (.bl 0x0C) (start [(.pc, 3), (.cr, 0x80)])) .pc = some 0x0C := by decide
theorem test_exec_bl_untaken :
    regAfter (exec (.bl 0x0C) (start [(.pc, 3), (.cr, 0x7F)])) .pc = some 4 := by decide

/-- The other value of SHIFT_POLICY (D10): the rows of V2 marked with it give 0x00. -/
theorem test_shift_policy_parameter :
    regAfter (execAluWith { machineConfig with shiftPolicy := .saturateToZero } .lsh .r2 (.reg .r3)
      (start [(.r2, 1), (.r3, 8)])) .r2 = some 0 := by decide

/-- The other value of PC_WRITE_INCREMENTS (D12): the rows of V4 marked with it land on the result. -/
theorem test_pc_write_parameter :
    regAfter (execMovWith { machineConfig with pcWriteIncrements := false } .pc (.imm 0xFF) (start [])) .pc = some 0xFF
    ∧ regAfter (execAluWith { machineConfig with pcWriteIncrements := false } .add .pc (.imm 0xFF)
        (start [(.pc, 5)])) .pc = some 4 := by decide

/-! ### The step and the host's operations (95 V4, V5) -/

/-- A word placed by withFetchWord is what the next step runs, from reset and at another PC. -/
theorem test_fetch_word_from_reset :
    regAfter (step (State.reset.withFetchWord 24 0x050011)) .r0 = some 5 := by decide

theorem test_fetch_word_at_pc_3 :
    regAfter (step ((start [(.pc, 3)]).withFetchWord 24 0x050011)) .r0 = some 5
    ∧ regAfter (step ((start [(.pc, 3)]).withFetchWord 24 0x050011)) .pc = some 4 := by decide

/-- From reset, placing a word is the load of its one record (R62). -/
theorem test_fetch_word_is_a_load : State.reset.withFetchWord 24 0x050011 = State.reset.load [0x11, 0x00, 0x05] := by
  decide

/-- Placing a word keeps the other records of a valid program. -/
theorem test_fetch_word_keeps_records :
    ((loaded [.br 1, .br 2]).withFetchWord 24 0x050011).prog = [.addv .r0 5, .br 2] := by decide

theorem test_step_at_power_up : State.reset.perform .step = (State.reset, .refused .noProgram) := by decide

theorem test_step_past_the_end :
    (State.reset.load [0x50, 0x05, 0x00]).performAll [.step, .step] = (State.reset.load [0x50, 0x05, 0x00]).setReg .pc 5
    ∧ ((State.reset.load [0x50, 0x05, 0x00]).perform .step).1.noInstr = true := by decide

theorem test_failed_load_keeps_registers :
    (((start [(.r1, 9)]).load [0x10, 0x00]).reg .r1, ((start [(.r1, 9)]).load [0x10, 0x00]).loadStatus)
      = (9, { progValid := false, errCode := 1, errByte := 0, len := 0 }) := by decide

theorem test_failed_load_discards_program :
    (loaded [.br 0]).performAll [.load [0x51, 0x00, 0x00]]
      = { loaded [.br 0] with progValid := false, errCode := 3, errByte := 0x51 } := by decide

theorem test_reset_keeps_program :
    ((loaded [.br 0]).performAll [.writeReg 0x10 1, .step, .reset]) = loaded [.br 0] := by decide

theorem test_host_bad_code :
    (start []).perform (.writeReg 0x08 5) = (start [], .refused (.noSuchRegister 0x08))
    ∧ (start []).perform (.readReg 0x18) = (start [], .refused (.noSuchRegister 0x18)) := by decide

theorem test_host_pc_write : (((start []).perform (.writeReg 0x16 0x16)).1.perform (.readReg 0x16)).2 = .value 0x16 := by
  decide

/-- The 36-byte program of W1. -/
def w1 : List Byte :=
  [0x60, 0x00, 0x10, 0x10, 0x00, 0x11, 0x41, 0x00, 0x00, 0x54, 0x09, 0x00, 0x61, 0x12, 0x00, 0x61, 0x13, 0x00,
   0x61, 0x14, 0x00, 0x61, 0x15, 0x00, 0x50, 0x00, 0x00, 0x61, 0x13, 0x06, 0x61, 0x14, 0x74, 0x50, 0x00, 0x00]

theorem test_w1_disassembly :
    disasmProgram (State.reset.load w1).prog =
      ["MOV %R0, %BA", "ADD %R0, %BB", "CMP %R0, $0", "BNE $9", "MOV %D0, $0", "MOV %D1, $0", "MOV %D2, $0",
       "MOV %D3, $0", "BR  $0", "MOV %D1, $6", "MOV %D2, $116", "BR  $0"] := by decide

theorem test_numbered_listing : numberedListing [.mov .r0 .ba, .br 0] = ["001: MOV %R0, %BA", "002: BR  $0"] := by decide

theorem test_listing_joins_lines : (loaded [.br 0, .br 5]).listing = some "BR  $0\nBR  $5" := by decide

/-- The old program of a failed load is not listed (log 21). -/
theorem test_no_listing_after_failed_load : ((loaded [.br 0]).load [0x51, 0x00, 0x00]).listing = none := by decide

theorem test_outputs : (start [(.d0, 1), (.d3, 4)]).outputs = [1, 0, 0, 4] := by decide

/-! ### Witnesses: a concrete case that meets all hypotheses of each statement together -/

theorem witness_RestartWithoutReload :
    ∀ op ∈ [HostOp.step, .writeReg 0x10 3, .readReg 0x18, .reset], op.isLoad = false := by decide

/-- The boundary bytes of the two ranges that name no register, and a code beside each. -/
theorem witness_RegisterCodesAreExact :
    Reg.ofCode 0x07 = some .r7 ∧ Reg.ofCode 0x08 = none ∧ Reg.ofCode 0x0F = none ∧ Reg.ofCode 0x10 = some .ba
    ∧ Reg.ofCode 0x17 = some .cr ∧ Reg.ofCode 0x18 = none ∧ Reg.ofCode 0xFF = none
    ∧ formOf 0x11 = .ri ∧ formOf 0x10 = .rr := by decide

theorem witness_RecordErrorPrecedence :
    (formOf 0x5A = .branch ∧ branchOpcodes.contains 0x5A = false)
    ∧ (formOf 0x15 = .ri ∧ regCodes.contains 0x18 = false)
    ∧ (formOf 0x15 = .ri ∧ regCodes.contains 0x17 = true ∧ riOpcodes.contains 0x15 = false)
    ∧ (formOf 0x14 = .rr ∧ regCodes.contains 0x08 = false)
    ∧ (formOf 0x14 = .rr ∧ regCodes.contains 0x07 = true ∧ regCodes.contains 0x0F = false)
    ∧ (formOf 0x14 = .rr ∧ regCodes.contains 0x00 = true ∧ regCodes.contains 0x10 = true
        ∧ rrOpcodes.contains 0x14 = false) := by decide

theorem witness_EncodeOfDecodeRestoresTheRecord :
    decodeRecord ⟨0x58, 0xFF, 0x07⟩ = .ok (.bl 0xFF) ∧ decodeRecord ⟨0x10, 0x17, 0x00⟩ = .ok (.add .cr .r0) := by decide

theorem witness_FirstFailingRecordIsReported :
    (∀ r ∈ [Record.mk 0x10 0 0], ∃ i, decodeRecord r = .ok i)
    ∧ decodeRecord ⟨0xFF, 0, 0⟩ = .error (.invalidBranchOpCode 0xFF) ∧ ([] : List Byte).length % 3 = 0 := by
  refine ⟨?_, by decide, by decide⟩
  intro r hr
  rw [List.mem_singleton] at hr
  subst hr
  exact ⟨.add .r0 .r0, by decide⟩

theorem witness_LoadOfEncodedProgram : [Instr.add .r1 .r2, .bl 0xFF] ≠ [] := by decide

theorem witness_FailedLoadRecordsTheError :
    decodeStream [0x61, 0x18, 0x00] = .error (.invalidRegisterAddress 0x18) := by decide

theorem witness_StepRunsFetchedInstruction :
    (loaded [.br 0]).progValid = true ∧ (loaded [.br 0]).prog[((loaded [.br 0]).reg .pc).toNat]? = some (.br 0)
    ∧ exec (.br 0) (loaded [.br 0]) = .next (loaded [.br 0]) := ⟨rfl, rfl, rfl⟩

theorem witness_StepRunsTheRecordOfTheLoadedStream :
    ((start [(.pc, 1)]).load [0x50, 0, 0, 0x11, 0, 5]).progValid = true
    ∧ ([0x50, 0, 0, 0x11, 0, 5] : List Byte)[3 * ((start [(.pc, 1)]).reg .pc).toNat]? = some 0x11
    ∧ ([0x50, 0, 0, 0x11, 0, 5] : List Byte)[3 * ((start [(.pc, 1)]).reg .pc).toNat + 1]? = some 0
    ∧ ([0x50, 0, 0, 0x11, 0, 5] : List Byte)[3 * ((start [(.pc, 1)]).reg .pc).toNat + 2]? = some 5 := by decide

theorem witness_StepWithoutProgramIsRefused : State.reset.progValid = false := by decide

/-- `no_instr` at its boundary: PC equal to `len`, and not one below. -/
theorem witness_ExhaustedRunChangesNothing :
    ((loaded [.br 0]).setReg .pc 1).noInstr = true ∧ (loaded [.br 0]).noInstr = false := by decide

/-- Each of the three ways out of exhaustion. -/
theorem witness_ExhaustionIsLeftOnlyByTheHost :
    ((loaded [.br 0]).setReg .pc 1).noInstr = true
    ∧ ∀ op ∈ [HostOp.writeReg 0x16 0, .reset, .load [0x50, 0, 0, 0x50, 0, 0]],
        (((loaded [.br 0]).setReg .pc 1).perform op).1.fetch
          ((((loaded [.br 0]).setReg .pc 1).perform op).1.reg .pc) ≠ none := by decide

/-- An index at the length of the program. -/
theorem witness_ExecutionNeverFaults : (loaded [.br 0]).len ≤ (1 : Byte).toNat := by decide

theorem witness_StepOfAValidProgramAnswers : (loaded [.br 0]).progValid = true := by decide

/-- The conditions at the boundary values of their ranges (R18). -/
theorem witness_BranchConditionsOnTheWholeByte :
    [0x00, 0x01, 0x7F, 0x80, 0xFF].map BranchKind.be.cond = [true, false, false, false, false]
    ∧ [0x00, 0x01, 0x7F, 0x80, 0xFF].map BranchKind.bne.cond = [false, true, true, true, true]
    ∧ [0x00, 0x01, 0x7F, 0x80, 0xFF].map BranchKind.bg.cond = [false, true, true, false, false]
    ∧ [0x00, 0x01, 0x7F, 0x80, 0xFF].map BranchKind.bl.cond = [false, false, false, true, true] := by decide

/-- A branch target at the length of the program. -/
theorem witness_BrAlwaysJumps : (loaded [.br 1]).len ≤ (1 : Byte).toNat := by decide

/-- Both forms of the compare, with a target that is CR itself in the ri form. -/
theorem witness_CompareThenBranch :
    (Instr.cmp .r0 .r1 = .cmp .r0 .r1 ∧ (7 : Byte) = (start [(.r0, 7), (.r1, 9)]).reg .r0
      ∧ (9 : Byte) = (start [(.r0, 7), (.r1, 9)]).reg .r1)
    ∧ (Instr.cmpv .cr 1 = .cmpv .cr 1 ∧ (5 : Byte) = (start [(.cr, 5)]).reg .cr) := by decide

theorem witness_InstructionWritesOnlyDestinationAndPc :
    exec (.movv .r1 7) (start []) = .next (start [(.r1, 7), (.pc, 1)])
    ∧ Reg.cr ≠ .pc ∧ destination (.movv .r1 7) ≠ some .cr := ⟨rfl, by decide, by decide⟩

/-- An increment that wraps, and a branch taken. -/
theorem witness_NextPcIsIncrementOrTarget :
    (destination (.movv .r1 7) ≠ some .pc ∧ branchTarget (.movv .r1 7) = none
      ∧ (start [(.pc, 255)]).reg .pc = 255
      ∧ exec (.movv .r1 7) (start [(.pc, 255)]) = .next (start [(.r1, 7)]))
    ∧ (destination (.br 9) ≠ some .pc ∧ exec (.br 9) (start []) = .next (start [(.pc, 9)])) :=
  ⟨⟨by decide, rfl, by decide, rfl⟩, by decide, rfl⟩

theorem witness_RunKeepsTheProgramStore : runSteps 2 (loaded [.br 0]) = .next (loaded [.br 0]) := rfl

theorem witness_StepKeepsStatusOk :
    statusOk (loaded [.br 0]) = true ∧ step (loaded [.br 0]) = .next (loaded [.br 0]) := ⟨by decide, rfl⟩

/-- The invariant in a state with an error, and a state it refuses: a listed opcode under the code of an opcode error. -/
theorem witness_HostOperationsKeepStatusOk :
    statusOk ((loaded [.br 0]).load [0x51, 0, 0]) = true
    ∧ statusOk { State.reset with errCode := 3, errByte := 0x50 } = false
    ∧ statusOk { State.reset with errCode := 6 } = false := by decide

theorem witness_UnreadRegisterDoesNotInterfere :
    Reg.d0 ≠ .pc ∧ (∀ i ∈ (loaded [.movv .d0 1, .cmpv .r1 3]).prog, Reg.d0 ∉ sources i)
    ∧ runSteps 1 (loaded [.movv .d0 1, .cmpv .r1 3])
        = .next ((loaded [.movv .d0 1, .cmpv .r1 3]).setReg .d0 1 |>.setReg .pc 1) := ⟨by decide, by decide, rfl⟩

/-- Two programs of 257 records that differ in record 256 only. -/
theorem witness_RecordsBeyond255NeverMatter :
    (List.replicate 256 (Instr.br 0) ++ [Instr.br 1]).take 256 = (List.replicate 256 (Instr.br 0) ++ [Instr.br 2]).take 256
    ∧ List.replicate 256 (Instr.br 0) ++ [Instr.br 1] ≠ List.replicate 256 (Instr.br 0) ++ [Instr.br 2]
    ∧ runSteps 1 { loaded [] with prog := List.replicate 256 (Instr.br 0) ++ [Instr.br 1] }
        = .next { loaded [] with prog := List.replicate 256 (Instr.br 0) ++ [Instr.br 1] } := by
  refine ⟨?_, fun h => ?_, rfl⟩
  · exact (List.take_left' List.length_replicate).trans (List.take_left' List.length_replicate).symm
  · exact absurd (List.append_cancel_left h) (by decide)

/-- The line numbers at the boundaries of the three ranges, and past three digits (R73, I14). -/
theorem witness_ListingHasOneLinePerInstruction :
    (9 < 10 ∧ lineNumber 9 = "009") ∧ (10 ≤ 10 ∧ 10 < 100 ∧ lineNumber 10 = "010")
    ∧ (10 ≤ 99 ∧ 99 < 100 ∧ lineNumber 99 = "099") ∧ (100 ≤ 100 ∧ lineNumber 100 = "100")
    ∧ (100 ≤ 999 ∧ lineNumber 999 = "999") ∧ (100 ≤ 1000 ∧ lineNumber 1000 = "1000") := by decide

/-- A state with a valid program, one without, and a load that fails. -/
theorem witness_ListingOfTheLoadedProgram :
    (loaded [.br 0]).progValid = true ∧ State.reset.progValid = false
    ∧ decodeStream [0x51, 0x00, 0x00] = .error (.invalidBranchOpCode 0x51) := by decide

theorem witness_HostReadAfterWrite : Reg.pc ≠ .cr := by decide

theorem witness_HostAccessToNoRegisterIsRefused :
    regCodes.contains 0x08 = false ∧ regCodes.contains 0x18 = false ∧ regCodes.contains 0xFF = false := by decide

end Sys2Proof.Machine.Tests
end

section
/-! SUPPORT and PROOFS. The state, the decoder's errors and the runs of steps: what every step and every host operation
keeps, and which parts of the state a run does not depend on. -/

namespace Sys2Proof

/-! ### The register codes -/

/-- WellFormed's list of codes is the list of the registers' own codes (R10). -/
theorem regCodes_eq_map_code : regCodes = Reg.all.map Reg.code := rfl

theorem Reg.mem_all (r : Reg) : r ∈ Reg.all := by cases r <;> decide

@[simp] theorem Reg.ofCode_code (r : Reg) : Reg.ofCode r.code = some r := by cases r <;> rfl

/-- The lookup is exact (R11). -/
theorem Reg.ofCode_eq_some_iff (b : Byte) (r : Reg) : Reg.ofCode b = some r ↔ b = r.code := by
  constructor
  · intro h
    have hcode : (r.code == b) = true := List.find?_some (p := fun r : Reg => r.code == b) h
    exact (eq_of_beq hcode).symm
  · rintro rfl
    exact Reg.ofCode_code r

theorem Reg.ofCode_eq_none_iff (b : Byte) : Reg.ofCode b = none ↔ b ∉ regCodes := by
  simp [Reg.ofCode, regCodes_eq_map_code, List.find?_eq_none]

/-- The codes are the bytes 0x00..0x07 and 0x10..0x17. -/
theorem not_mem_regCodes_iff (b : Byte) :
    b ∉ regCodes ↔ (0x08 ≤ b.toNat ∧ b.toNat ≤ 0x0F) ∨ 0x18 ≤ b.toNat := by
  simp only [regCodes, List.mem_cons, List.not_mem_nil, or_false]
  bv_omega

theorem Reg.ofCode_eq_none_iff_toNat (b : Byte) :
    Reg.ofCode b = none ↔ (0x08 ≤ b.toNat ∧ b.toNat ≤ 0x0F) ∨ 0x18 ≤ b.toNat :=
  (Reg.ofCode_eq_none_iff b).trans (not_mem_regCodes_iff b)

theorem Reg.ofCode_ofNat_isNone_iff {n : Nat} (h : n < 256) :
    (Reg.ofCode (BitVec.ofNat 8 n)).isNone = true ↔ (0x08 ≤ n ∧ n ≤ 0x0F) ∨ 0x18 ≤ n := by
  rw [Option.isNone_iff_eq_none, Reg.ofCode_eq_none_iff_toNat, BitVec.toNat_ofNat, Nat.mod_eq_of_lt h]

/-- Below 0x18 eight bytes name no register, and from there on no byte names one. -/
theorem countP_ofCode_isNone (k : Nat) (hk : 24 + k ≤ 256) :
    (List.range (24 + k)).countP (fun n => (Reg.ofCode (BitVec.ofNat 8 n)).isNone) = 8 + k := by
  induction k with
  | zero => decide
  | succ k ih =>
    have hlast : (Reg.ofCode (BitVec.ofNat 8 (24 + k))).isNone = true :=
      (Reg.ofCode_ofNat_isNone_iff (by omega)).2 (by omega)
    rw [← Nat.add_assoc, List.range_succ, List.countP_append, ih (by omega), List.countP_singleton, if_pos hlast]
    omega

/-! ### The dispatch on an opcode and the errors of one record -/

/-- Compared on every bit, an opcode selects no row exactly if it heads none (R60). -/
theorem dispatchOn_full_eq_none_iff {α : Type} (op : Byte) (table : List (Byte × α)) :
    dispatchOn 0xFF op table = none ↔ op ∉ table.map Prod.fst := by
  have full (x : Byte) : x &&& 0xFF = x := BitVec.and_allOnes (x := x)
  induction table with
  | nil => simp [dispatchOn]
  | cons row rest ih =>
    by_cases h : op = row.1
    · simp [dispatchOn, h]
    · rw [dispatchOn, full, full, if_neg h]
      exact ih.trans (by simp [h])

theorem decodeRecord_ri_bad_target {op a : Byte} (b : Byte) (hf : formOf op = .ri) (ha : Reg.ofCode a = none) :
    decodeRecord ⟨op, a, b⟩ = .error (.invalidRegisterAddress a) := by
  simp [decodeRecord, decodeRecordWith, hf, ha]

theorem decodeRecord_rr_bad_target {op a : Byte} (b : Byte) (hf : formOf op = .rr) (ha : Reg.ofCode a = none) :
    decodeRecord ⟨op, a, b⟩ = .error (.invalidRegisterAddress a) := by
  simp [decodeRecord, decodeRecordWith, hf, ha]

theorem decodeRecord_rr_bad_source {op b : Byte} (t : Reg) (hf : formOf op = .rr) (hb : Reg.ofCode b = none) :
    decodeRecord ⟨op, t.code, b⟩ = .error (.invalidRegisterAddress b) := by
  simp [decodeRecord, decodeRecordWith, hf, hb]

/-- The byte an error carries is one the error is raised for (R133 to R136): no register code, or an opcode of the
error's form that is not listed. -/
def DecodeError.carriesFault : DecodeError → Bool
  | .invalidProgram => true
  | .invalidRegisterAddress b => !regCodes.contains b
  | .invalidBranchOpCode op => formOf op == .branch && !branchOpcodes.contains op
  | .invalidSrcValueOpCode op => formOf op == .ri && !riOpcodes.contains op
  | .invalidOpCode op => formOf op == .rr && !rrOpcodes.contains op

theorem invalidRegisterAddress_carriesFault {b : Byte} (h : Reg.ofCode b = none) :
    (DecodeError.invalidRegisterAddress b).carriesFault = true := by
  simpa [DecodeError.carriesFault] using (Reg.ofCode_eq_none_iff b).1 h

theorem decodeRecord_error_carriesFault {r : Record} {e : DecodeError} (h : decodeRecord r = .error e) :
    e.carriesFault = true := by
  unfold decodeRecord decodeRecordWith at h
  split at h
  next hf =>
    split at h
    next => cases h
    next hop =>
      cases h
      have hop : r.op ∉ branchOpcodes := (dispatchOn_full_eq_none_iff r.op branchTable).1 hop
      simpa [DecodeError.carriesFault, hf] using hop
  next hf =>
    split at h
    next ha => cases h; exact invalidRegisterAddress_carriesFault ha
    next =>
      split at h
      next => cases h
      next hop =>
        cases h
        have hop : r.op ∉ riOpcodes := (dispatchOn_full_eq_none_iff r.op riTable).1 hop
        simpa [DecodeError.carriesFault, hf] using hop
  next hf =>
    split at h
    next ha => cases h; exact invalidRegisterAddress_carriesFault ha
    next hb => cases h; exact invalidRegisterAddress_carriesFault hb
    next =>
      split at h
      next => cases h
      next hop =>
        cases h
        have hop : r.op ∉ rrOpcodes := (dispatchOn_full_eq_none_iff r.op rrTable).1 hop
        simpa [DecodeError.carriesFault, hf] using hop

/-! ### A whole stream -/

theorem decodeRecords_error_carriesFault {bytes : List Byte} {e : DecodeError} (h : decodeRecords bytes = .error e) :
    e.carriesFault = true := by
  fun_induction decodeRecords bytes with
  | case1 => cases h
  | case2 op a b rest e' hrec => cases h; exact decodeRecord_error_carriesFault hrec
  | case3 op a b rest i hrec e' hrest ih => cases h; exact ih hrest
  | case4 => cases h
  | case5 => cases h; rfl

theorem decodeStream_error_carriesFault {bytes : List Byte} {e : DecodeError} (h : decodeStream bytes = .error e) :
    e.carriesFault = true := by
  rw [Machine.decodeStream_eq] at h
  split at h
  · cases h; rfl
  · exact decodeRecords_error_carriesFault h

theorem decodeRecords_ok_programOk {bytes : List Byte} {prog : List Instr} (hne : bytes ≠ [])
    (h : decodeRecords bytes = .ok prog) : programOk prog = true := by
  fun_induction decodeRecords bytes with
  | case1 => exact absurd rfl hne
  | case2 => cases h
  | case3 => cases h
  | case4 => cases h; rfl
  | case5 => cases h

/-- A stream that decodes gives at least one instruction (R23, R132). -/
theorem decodeStream_ok_programOk {bytes : List Byte} {prog : List Instr} (h : decodeStream bytes = .ok prog) :
    programOk prog = true := by
  rw [Machine.decodeStream_eq] at h
  split at h
  next => cases h
  next hlen => exact decodeRecords_ok_programOk (fun hnil => hlen (.inl (by simp [hnil]))) h

end Sys2Proof

namespace Sys2Proof.Machine

/-! ### What a step and a run leave alone -/

theorem retire_sameStore (s : State) (t : Reg) (v : Byte) : SameStore s (s.retire machineConfig t v) := by
  rw [retire_machine]
  exact ⟨rfl, rfl, rfl, rfl⟩

/-- No instruction writes the program store or the decoder status (R45). -/
theorem exec_sameStore {i : Instr} {s s' : State} (h : exec i s = .next s') : SameStore s s' := by
  obtain ⟨t, v, -, -, hexec⟩ | ⟨-, taken, hexec, -⟩ := exec_cases i s
  · cases hexec.symm.trans h
    exact retire_sameStore s t v
  · cases hexec.symm.trans h
    exact nextPc_sameStore s taken

theorem step_sameStore {s s' : State} (h : step s = .next s') : SameStore s s' := by
  obtain ⟨-, hstep⟩ | ⟨-, -, hstep⟩ | ⟨-, i, -, hstep⟩ := step_cases s
  · cases hstep.symm.trans h
  · cases hstep.symm.trans h
    exact SameStore.refl s
  · exact exec_sameStore (hstep.symm.trans h)

/-- A run of `n + 1` steps that answers is a step that answers and a run of `n` from there. -/
theorem runSteps_succ_eq_next_iff (n : Nat) (s a : State) :
    runSteps (n + 1) s = .next a ↔ ∃ m, step s = .next m ∧ runSteps n m = .next a := by
  cases h : step s <;> simp [runSteps, h]

theorem fetch_mem {s : State} {index : Byte} {i : Instr} (h : s.fetch index = some i) : i ∈ s.prog := by
  unfold State.fetch at h
  split at h
  · exact List.mem_of_getElem? h
  · cases h

/-! ### The store-and-status invariant -/

/-- The invariant reads the store and the status only. -/
theorem statusOk_of_sameStore {s s' : State} (h : SameStore s s') : statusOk s' = statusOk s := by
  obtain ⟨hprog, hvalid, hcode, hbyte⟩ := h
  simp only [statusOk, hprog, hvalid, hcode, hbyte]

theorem statusOk_installProgram (s : State) (p : List Instr) : statusOk (s.installProgram p) = programOk p := by
  simp [statusOk]

/-- After a raise the invariant says that the error carries a byte at fault. -/
theorem statusOk_raise (s : State) (e : DecodeError) : statusOk (s.raise e) = e.carriesFault := by
  cases e <;> rfl

/-- A load establishes the invariant, whatever held before it. -/
theorem statusOk_load (s : State) (bytes : List Byte) : statusOk (s.load bytes) = true := by
  obtain ⟨prog, hdec, hload⟩ | ⟨e, hdec, hload⟩ := load_cases s bytes
  · rw [hload, statusOk_installProgram]
    exact decodeStream_ok_programOk hdec
  · rw [hload, statusOk_raise]
    exact decodeStream_error_carriesFault hdec

theorem hostStep_sameStore (s : State) : SameStore s s.hostStep.1 := by
  unfold State.hostStep
  split
  next h => exact step_sameStore h
  next => exact SameStore.refl s
  next impossible _ => exact nomatch impossible

theorem hostRead_sameStore (s : State) (code : Byte) : SameStore s (s.hostRead code).1 := by
  unfold State.hostRead
  split <;> exact SameStore.refl s

theorem hostWrite_sameStore (s : State) (code v : Byte) : SameStore s (s.hostWrite code v).1 := by
  unfold State.hostWrite
  split
  · exact ⟨rfl, rfl, rfl, rfl⟩
  · exact SameStore.refl s

/-- Only a load writes the store and the status (R45, R151). -/
theorem perform_sameStore (s : State) {op : HostOp} (h : op.isLoad = false) : SameStore s (s.perform op).1 := by
  cases op with
  | reset => exact ⟨rfl, rfl, rfl, rfl⟩
  | load bytes => cases h
  | step => exact hostStep_sameStore s
  | readReg code => exact hostRead_sameStore s code
  | writeReg code v => exact hostWrite_sameStore s code v

theorem statusOk_perform {s : State} (op : HostOp) (h : statusOk s = true) : statusOk (s.perform op).1 = true := by
  cases hop : op.isLoad with
  | false => exact (statusOk_of_sameStore (perform_sameStore s hop)).trans h
  | true =>
    cases op with
    | load bytes => exact statusOk_load s bytes
    | reset | step | readReg _ | writeReg _ _ => cases hop

/-! ### What an instruction's effect depends on -/

/-- A function of the state that reads no register outside `l`, and neither store nor status. -/
def DependsOnlyOn {α : Type} (l : List Reg) (f : State → α) : Prop :=
  ∀ s s' : State, (∀ r ∈ l, s.reg r = s'.reg r) → f s = f s'

theorem dependsOnlyOn_const {α : Type} (l : List Reg) (x : α) : DependsOnlyOn l fun _ => x := fun _ _ _ => rfl

theorem dependsOnlyOn_reg {l : List Reg} {r : Reg} (h : r ∈ l) : DependsOnlyOn l (·.reg r) := fun _ _ heq => heq r h

/-- A result computed of two values depends on what the two depend on. -/
theorem DependsOnlyOn.map₂ {α β γ : Type} {l : List Reg} {f : State → α} {g : State → β} (hf : DependsOnlyOn l f)
    (hg : DependsOnlyOn l g) (op : α → β → γ) : DependsOnlyOn l fun s => op (f s) (g s) :=
  fun s s' heq => congrArg₂ op (hf s s' heq) (hg s s' heq)

theorem DependsOnlyOn.map {α β : Type} {l : List Reg} {f : State → α} (hf : DependsOnlyOn l f) (op : α → β) :
    DependsOnlyOn l fun s => op (f s) :=
  fun s s' heq => congrArg op (hf s s' heq)

/-- Whether a conditional branch is taken depends on CR (R112). -/
theorem branchChoice_dependsOnlyOn_cr (kind : BranchKind) (a : Byte) :
    DependsOnlyOn [.cr] fun s => if kind.cond (s.reg .cr) then some a else none :=
  (dependsOnlyOn_reg (List.mem_singleton_self .cr)).map fun v => if kind.cond v then some a else none

/-- Every instruction, in all states alike, retires a value to one register or updates PC, and that value or that choice
depends on its sources only (R14, R112). -/
theorem exec_depends_on_sources (i : Instr) :
    (∃ t f, (∀ s, exec i s = .next (s.retire machineConfig t (f s))) ∧ DependsOnlyOn (sources i) f)
      ∨ (∃ f, (∀ s, exec i s = .next (s.nextPc (f s))) ∧ DependsOnlyOn (sources i) f) := by
  cases i with
  | add t r | sub t r | lsh t r | rsh t r | and t r | or t r | xor t r | cmp t r =>
    have ht : DependsOnlyOn [t, r] (·.reg t) := dependsOnlyOn_reg (by simp)
    have hr : DependsOnlyOn [t, r] (·.reg r) := dependsOnlyOn_reg (by simp)
    exact .inl ⟨_, _, fun _ => rfl, ht.map₂ hr _⟩
  | addv t imm | subv t imm | lshv t imm | rshv t imm | andv t imm | orv t imm | xorv t imm | cmpv t imm =>
    have ht : DependsOnlyOn [t] (·.reg t) := dependsOnlyOn_reg (by simp)
    exact .inl ⟨_, _, fun _ => rfl, ht.map₂ (dependsOnlyOn_const [t] imm) _⟩
  | mov t r => exact .inl ⟨t, (·.reg r), fun _ => rfl, dependsOnlyOn_reg (by simp [sources])⟩
  | movv t imm => exact .inl ⟨t, fun _ => imm, fun _ => rfl, dependsOnlyOn_const _ imm⟩
  | br a => exact .inr ⟨fun _ => some a, fun _ => rfl, dependsOnlyOn_const _ (some a)⟩
  | be a | bne a | bg a | bl a => exact .inr ⟨_, fun _ => rfl, branchChoice_dependsOnlyOn_cr _ a⟩

/-! ### Two states that agree off one register -/

/-- The two states differ in register `r` at most. -/
def AgreeOff (r : Reg) (s s' : State) : Prop := (∀ q, q ≠ r → s'.reg q = s.reg q) ∧ SameStore s s'

theorem agreeOff_setReg (s : State) (r : Reg) (v : Byte) : AgreeOff r s (s.setReg r v) :=
  ⟨fun _ h => reg_setReg_other s r _ v h, rfl, rfl, rfl, rfl⟩

/-- The same write on both sides keeps the agreement. -/
theorem AgreeOff.setReg {r : Reg} {s s' : State} (h : AgreeOff r s s') (t : Reg) (v : Byte) :
    AgreeOff r (s.setReg t v) (s'.setReg t v) := by
  obtain ⟨hreg, hstore⟩ := h
  refine ⟨fun q hq => ?_, hstore⟩
  rw [reg_setReg, reg_setReg, hreg q hq]

theorem AgreeOff.nextPc {r : Reg} {s s' : State} (h : AgreeOff r s s') (hr : r ≠ .pc) (taken : Option Byte) :
    AgreeOff r (s.nextPc taken) (s'.nextPc taken) := by
  have hpc : s'.reg .pc = s.reg .pc := h.1 .pc hr.symm
  rw [State.nextPc, State.nextPc, hpc]
  exact h.setReg .pc _

theorem AgreeOff.retire {r : Reg} {s s' : State} (h : AgreeOff r s s') (hr : r ≠ .pc) (t : Reg) (v : Byte) :
    AgreeOff r (s.retire machineConfig t v) (s'.retire machineConfig t v) := by
  rw [retire_machine, retire_machine]
  exact (h.setReg t v).nextPc hr none

theorem AgreeOff.eq_of_dependsOnlyOn {α : Type} {r : Reg} {s s' : State} (h : AgreeOff r s s') {l : List Reg}
    (hr : r ∉ l) {f : State → α} (hf : DependsOnlyOn l f) : f s' = f s :=
  hf s' s fun q hq => h.1 q fun heq => hr (heq ▸ hq)

/-- An instruction that does not read `r` keeps the agreement off `r`. -/
theorem AgreeOff.exec {r : Reg} {s s' a : State} {i : Instr} (h : AgreeOff r s s') (hr : r ≠ .pc)
    (hsrc : r ∉ sources i) (hexec : exec i s = .next a) : ∃ b, exec i s' = .next b ∧ AgreeOff r a b := by
  obtain ⟨t, f, heq, hf⟩ | ⟨f, heq, hf⟩ := exec_depends_on_sources i
  · cases (heq s).symm.trans hexec
    refine ⟨_, heq s', ?_⟩
    rw [h.eq_of_dependsOnlyOn hsrc hf]
    exact h.retire hr t _
  · cases (heq s).symm.trans hexec
    refine ⟨_, heq s', ?_⟩
    rw [h.eq_of_dependsOnlyOn hsrc hf]
    exact h.nextPc hr _

/-- Both states fetch the same record: PC, program and validity agree. -/
theorem AgreeOff.fetch {r : Reg} {s s' : State} (h : AgreeOff r s s') (hr : r ≠ .pc) :
    s'.fetch (s'.reg .pc) = s.fetch (s.reg .pc) := by
  obtain ⟨hreg, hprog, hvalid, -, -⟩ := h
  rw [State.fetch, State.fetch, hprog, hvalid, hreg .pc hr.symm]

theorem AgreeOff.step {r : Reg} {s s' a : State} (h : AgreeOff r s s') (hr : r ≠ .pc)
    (hsrc : ∀ i ∈ s.prog, r ∉ sources i) (hstep : step s = .next a) :
    ∃ b, step s' = .next b ∧ AgreeOff r a b := by
  have hvalid : s'.progValid = s.progValid := h.2.2.1
  have hfetch := h.fetch hr
  obtain ⟨-, heq⟩ | ⟨hv, hnone, heq⟩ | ⟨hv, i, hsome, heq⟩ := step_cases s
  · cases heq.symm.trans hstep
  · cases heq.symm.trans hstep
    exact ⟨s', by simp [Machine.step, hvalid, hv, hfetch, hnone], h⟩
  · obtain ⟨b, hb, hab⟩ := h.exec hr (hsrc i (fetch_mem hsome)) (heq.symm.trans hstep)
    exact ⟨b, by simp [Machine.step, hvalid, hv, hfetch, hsome, hb], hab⟩

theorem AgreeOff.runSteps {r : Reg} (hr : r ≠ .pc) (n : Nat) {s s' a : State} (h : AgreeOff r s s')
    (hsrc : ∀ i ∈ s.prog, r ∉ sources i) (hrun : runSteps n s = .next a) :
    ∃ b, runSteps n s' = .next b ∧ AgreeOff r a b := by
  induction n generalizing s s' with
  | zero => cases hrun; exact ⟨s', rfl, h⟩
  | succ n ih =>
    obtain ⟨m, hstep, hrest⟩ := (runSteps_succ_eq_next_iff n s a).1 hrun
    obtain ⟨m', hstep', hm⟩ := h.step hr hsrc hstep
    have hprog : m.prog = s.prog := (step_sameStore hstep).1
    obtain ⟨b, hrest', hab⟩ := ih hm (hprog ▸ hsrc) hrest
    exact ⟨b, (runSteps_succ_eq_next_iff n s' b).2 ⟨m', hstep', hrest'⟩, hab⟩

/-! ### Another program in the same state -/

/-- The state with another program in its store. -/
def State.withProg (s : State) (q : List Instr) : State := { s with prog := q }

@[simp] theorem withProg_reg (s : State) (q : List Instr) (r : Reg) : (s.withProg q).reg r = s.reg r := rfl
@[simp] theorem withProg_prog (s : State) (q : List Instr) : (s.withProg q).prog = q := rfl
@[simp] theorem withProg_progValid (s : State) (q : List Instr) : (s.withProg q).progValid = s.progValid := rfl

theorem retire_withProg (s : State) (q : List Instr) (t : Reg) (v : Byte) :
    (s.withProg q).retire machineConfig t v = (s.retire machineConfig t v).withProg q := by
  rw [retire_machine, retire_machine]
  rfl

theorem nextPc_withProg (s : State) (q : List Instr) (taken : Option Byte) :
    (s.withProg q).nextPc taken = (s.nextPc taken).withProg q := rfl

/-- An instruction does not read the store: it does the same whatever program stands there. -/
theorem exec_withProg {i : Instr} {s a : State} (q : List Instr) (h : exec i s = .next a) :
    exec i (s.withProg q) = .next (a.withProg q) := by
  obtain ⟨t, f, heq, hf⟩ | ⟨f, heq, hf⟩ := exec_depends_on_sources i
  · cases (heq s).symm.trans h
    rw [heq, hf (s.withProg q) s fun _ _ => rfl, retire_withProg]
  · cases (heq s).symm.trans h
    rw [heq, hf (s.withProg q) s fun _ _ => rfl, nextPc_withProg]

/-- An index is a byte, so a fetch sees the first 256 records only (R15, R16). -/
theorem fetch_withProg {s : State} {q : List Instr} (hq : s.prog.take 256 = q.take 256) (index : Byte) :
    (s.withProg q).fetch index = s.fetch index := by
  have hlt : index.toNat < 256 := index.isLt
  have hget : q[index.toNat]? = s.prog[index.toNat]? := by
    rw [← List.getElem?_take_of_lt hlt, ← hq, List.getElem?_take_of_lt hlt]
  rw [State.fetch, State.fetch, withProg_prog, hget]
  rfl

theorem step_withProg {s a : State} {q : List Instr} (hq : s.prog.take 256 = q.take 256) (h : step s = .next a) :
    step (s.withProg q) = .next (a.withProg q) := by
  have hfetch := fetch_withProg hq (s.reg .pc)
  obtain ⟨-, heq⟩ | ⟨hv, hnone, heq⟩ | ⟨hv, i, hsome, heq⟩ := step_cases s
  · cases heq.symm.trans h
  · cases heq.symm.trans h
    simp [step, hv, hfetch, hnone]
  · have hexec := exec_withProg q (heq.symm.trans h)
    simp [step, hv, hfetch, hsome, hexec]

theorem runSteps_withProg (n : Nat) {s a : State} {q : List Instr} (hq : s.prog.take 256 = q.take 256)
    (h : runSteps n s = .next a) : runSteps n (s.withProg q) = .next (a.withProg q) := by
  induction n generalizing s with
  | zero => cases h; rfl
  | succ n ih =>
    obtain ⟨m, hstep, hrest⟩ := (runSteps_succ_eq_next_iff n s a).1 h
    have hprog : m.prog = s.prog := (step_sameStore hstep).1
    exact (runSteps_succ_eq_next_iff n _ _).2 ⟨_, step_withProg hq hstep, ih (hprog ▸ hq) hrest⟩

/-! ### The conditions and the spelling of a move -/

theorem signed8_eq_zero_iff (v : Byte) : signed8 v = 0 ↔ v.toNat = 0 := by
  have hlt : v.toNat < 256 := v.isLt
  unfold signed8
  split <;> omega

theorem signed8_pos_iff (v : Byte) : 0 < signed8 v ↔ 1 ≤ v.toNat ∧ v.toNat ≤ 0x7F := by
  have hlt : v.toNat < 256 := v.isLt
  unfold signed8
  split <;> omega

theorem signed8_neg_iff (v : Byte) : signed8 v < 0 ↔ 0x80 ≤ v.toNat := by
  have hlt : v.toNat < 256 := v.isLt
  unfold signed8
  split <;> omega

/-- The line of a move of registers (R72): its mnemonic has three characters and needs no padding. -/
theorem disasm_mov (t r : Reg) : disasm (.mov t r) = "MOV %" ++ regName t ++ ", %" ++ regName r := by
  have hpad : pad3 "MOV" ++ " %" = "MOV %" := by decide
  simp only [disasm, lineRr, hpad]

/-! ### The obligations of the state family -/

/-- Settles O44, by induction on the operations: a load establishes the invariant, every other operation keeps store and
status. -/
theorem hostOperationsKeepStatusOk : Obligations.HostOperationsKeepStatusOk := by
  intro s ops
  induction ops generalizing s with
  | nil => exact id
  | cons op ops ih => exact fun h => ih _ (statusOk_perform op h)

/-- Settles O45: the two runs agree off `r` after every step. -/
theorem unreadRegisterDoesNotInterfere : Obligations.UnreadRegisterDoesNotInterfere :=
  fun n s _ r v hr hsrc hrun => (agreeOff_setReg s r v).runSteps hr n hsrc hrun

/-- Settles O46: the two runs go in step, since every fetch sees the common 256 records only. -/
theorem recordsBeyond255NeverMatter : Obligations.RecordsBeyond255NeverMatter :=
  fun n s p _ _ hpq hrun => runSteps_withProg (s := s.withProg p) n hpq hrun

/-- Settles O43: a step writes neither store nor status. -/
theorem stepKeepsStatusOk : Obligations.StepKeepsStatusOk :=
  fun _ _ h hstep => (statusOk_of_sameStore (step_sameStore hstep)).trans h

/-- Settles O2. -/
theorem powerUpState : Obligations.PowerUpState :=
  ⟨zeroRegs_get, rfl, rfl, rfl, rfl, rfl, rfl⟩

/-- Settles O5, from the exact lookup and the record errors that check a register before the opcode. -/
theorem registerCodesAreExact : Obligations.RegisterCodesAreExact := by
  refine ⟨Reg.ofCode_eq_some_iff, Reg.ofCode_eq_none_iff_toNat, countP_ofCode_isNone 232 (by omega),
    ?_, ?_, ?_, ?_, disasm_mov⟩
  · exact fun _ _ b => decodeRecord_ri_bad_target b
  · exact fun _ _ r => decodeRecord_rr_bad_target r.code
  · exact fun _ _ t => decodeRecord_rr_bad_source t
  · exact fun _ a b hf ha _ => ⟨a, .inl rfl, decodeRecord_rr_bad_target b hf ha⟩

/-- Settles O37, each condition read off the sign of the byte. -/
theorem branchConditionsOnTheWholeByte : Obligations.BranchConditionsOnTheWholeByte := by
  intro v
  refine ⟨rfl, rfl, ?_, ?_, ?_, ?_⟩
  · simp [BranchKind.cond, condEq, signed8_eq_zero_iff]
  · simp [BranchKind.cond, condNe, signed8_eq_zero_iff, Nat.one_le_iff_ne_zero]
  · simp [BranchKind.cond, condGt, signed8_pos_iff]
  · simp [BranchKind.cond, condLt, signed8_neg_iff]

/-- Settles O42. -/
theorem powerUpStatusOk : Obligations.PowerUpStatusOk := rfl

/-- Settles O50: the table is evaluated row by row, and the spelling is the move's own line. -/
theorem registerTableOfR10 : Obligations.RegisterTableOfR10 := by
  refine ⟨by decide, Reg.mem_all, fun _ => rfl, fun r => ?_⟩
  rw [disasm_mov, show "MOV %" = "MOV " ++ "%" by decide, show ", %" = ", " ++ "%" by decide]
  simp only [String.append_assoc]

end Sys2Proof.Machine
end

section
/-! SUPPORT and PROOFS. The program store over a run of steps, and the host's register port. -/

namespace Sys2Proof.Machine

/-! ### Runs and the program store -/

theorem runSteps_sameStore (n : Nat) {s s' : State} (h : runSteps n s = .next s') : SameStore s s' := by
  induction n generalizing s with
  | zero => cases h; exact SameStore.refl _
  | succ n ih =>
    obtain ⟨m, hstep, hrest⟩ := (runSteps_succ_eq_next_iff n s s').1 h
    exact (step_sameStore hstep).trans (ih hrest)

/-! ### The host's register port: a code that names a register, and one that names none -/

@[simp] theorem perform_readReg_code (s : State) (r : Reg) :
    s.perform (.readReg r.code) = (s, .value (s.reg r)) := by
  simp [State.perform, State.hostRead]

@[simp] theorem perform_writeReg_code (s : State) (r : Reg) (v : Byte) :
    s.perform (.writeReg r.code v) = (s.setReg r v, .done) := by
  simp [State.perform, State.hostWrite]

theorem perform_readReg_of_not_mem (s : State) {code : Byte} (h : code ∉ regCodes) :
    s.perform (.readReg code) = (s, .refused (.noSuchRegister code)) := by
  simp [State.perform, State.hostRead, (Reg.ofCode_eq_none_iff code).2 h]

theorem perform_writeReg_of_not_mem (s : State) {code : Byte} (v : Byte) (h : code ∉ regCodes) :
    s.perform (.writeReg code v) = (s, .refused (.noSuchRegister code)) := by
  simp [State.perform, State.hostWrite, (Reg.ofCode_eq_none_iff code).2 h]

/-! ### The obligations of the memory family -/

/-- Settles O41, by induction on the number of steps. -/
theorem runKeepsTheProgramStore : Obligations.RunKeepsTheProgramStore :=
  fun n _ _ => runSteps_sameStore n

/-- Settles O48: the port writes and reads the register its code names, so the register file's read-after-write laws
carry over. -/
theorem hostReadAfterWrite : Obligations.HostReadAfterWrite := by
  intro s r v
  refine ⟨?done, ?sameRegister, ?otherRegister, perform_sameStore s rfl⟩
  case done => rw [perform_writeReg_code]
  case sameRegister => rw [perform_writeReg_code, perform_readReg_code, reg_setReg_same]
  case otherRegister =>
    intro q hq
    rw [perform_writeReg_code, perform_readReg_code, reg_setReg_other s r q v hq]

/-- Settles O49: the lookup finds no register for such a byte, and both accesses refuse before they touch the state. -/
theorem hostAccessToNoRegisterIsRefused : Obligations.HostAccessToNoRegisterIsRefused := by
  intro s code v hcode
  have hnot : code ∉ regCodes := by simpa using hcode
  exact ⟨perform_readReg_of_not_mem s hnot, perform_writeReg_of_not_mem s v hnot⟩

end Sys2Proof.Machine
end

section
/-! SUPPORT and PROOFS. The decoder and the encoder: which records decode and to what, whole streams and what a load makes
of them, and the listings of a program. -/

namespace Sys2Proof

/-! ### The dispatch tables -/

/-- In a table that lists no opcode twice, comparing on every bit selects exactly the listed row (R60). -/
theorem dispatchOn_full_eq_some_iff {α : Type} {table : List (Byte × α)} (hnodup : (table.map Prod.fst).Nodup)
    (op : Byte) (row : α) : dispatchOn 0xFF op table = some row ↔ (op, row) ∈ table := by
  have full (x : Byte) : x &&& 0xFF = x := BitVec.and_allOnes (x := x)
  induction table with
  | nil => simp [dispatchOn]
  | cons head rest ih =>
    obtain ⟨code, found⟩ := head
    obtain ⟨hcode, hrest⟩ := List.nodup_cons.1 hnodup
    rw [dispatchOn, full, full]
    by_cases h : op = code
    · have hnot : (op, row) ∉ rest := fun hmem => hcode (List.mem_map.2 ⟨(op, row), hmem, h⟩)
      simp [h, h ▸ hnot, eq_comm]
    · rw [if_neg h]
      exact (ih hrest).trans (by simp [h])

theorem dispatchOn_branchTable_iff (op : Byte) (make : Byte → Instr) :
    dispatchOn 0xFF op branchTable = some make ↔ (op, make) ∈ branchTable :=
  dispatchOn_full_eq_some_iff (by decide) op make

theorem dispatchOn_riTable_iff (op : Byte) (make : Reg → Byte → Instr) :
    dispatchOn 0xFF op riTable = some make ↔ (op, make) ∈ riTable :=
  dispatchOn_full_eq_some_iff (by decide) op make

theorem dispatchOn_rrTable_iff (op : Byte) (make : Reg → Reg → Instr) :
    dispatchOn 0xFF op rrTable = some make ↔ (op, make) ∈ rrTable :=
  dispatchOn_full_eq_some_iff (by decide) op make

theorem mem_branchOpcodes_iff (op : Byte) : op ∈ branchOpcodes ↔ ∃ make, (op, make) ∈ branchTable := by
  simp [show branchOpcodes = branchTable.map Prod.fst from rfl]

theorem mem_riOpcodes_iff (op : Byte) : op ∈ riOpcodes ↔ ∃ make, (op, make) ∈ riTable := by
  simp [show riOpcodes = riTable.map Prod.fst from rfl]

theorem mem_rrOpcodes_iff (op : Byte) : op ∈ rrOpcodes ↔ ∃ make, (op, make) ∈ rrTable := by
  simp [show rrOpcodes = rrTable.map Prod.fst from rfl]

theorem formOf_of_mem_branchTable : ∀ row ∈ branchTable, formOf row.1 = .branch := by decide

theorem formOf_of_mem_riTable : ∀ row ∈ riTable, formOf row.1 = .ri := by decide

theorem formOf_of_mem_rrTable : ∀ row ∈ rrTable, formOf row.1 = .rr := by decide

theorem mem_regCodes_iff (b : Byte) : b ∈ regCodes ↔ ∃ r : Reg, b = r.code := by
  simp [regCodes_eq_map_code, Reg.mem_all, eq_comm]

/-! ### The records that decode -/

/-- The reading of a record the three tables give (R57 to R59): a listed opcode with register codes in the
register-bearing bytes, byte `b` of a branch free. The decoder is tied to it by `decodeRecord_eq_ok_iff`. -/
inductive Denotes : Record → Instr → Prop
  | branch {op : Byte} {make : Byte → Instr} (hmem : (op, make) ∈ branchTable) (a b : Byte) :
      Denotes ⟨op, a, b⟩ (make a)
  | ri {op : Byte} {make : Reg → Byte → Instr} (hmem : (op, make) ∈ riTable) (t : Reg) (b : Byte) :
      Denotes ⟨op, t.code, b⟩ (make t b)
  | rr {op : Byte} {make : Reg → Reg → Instr} (hmem : (op, make) ∈ rrTable) (t s : Reg) :
      Denotes ⟨op, t.code, s.code⟩ (make t s)

theorem denotes_of_decodeRecord {r : Record} {i : Instr} (h : decodeRecord r = .ok i) : Denotes r i := by
  obtain ⟨op, a, b⟩ := r
  unfold decodeRecord decodeRecordWith at h
  split at h
  next =>
    split at h
    next make hop => cases h; exact .branch ((dispatchOn_branchTable_iff op make).1 hop) a b
    next => cases h
  next =>
    split at h
    next => cases h
    next t ha =>
      obtain rfl := (Reg.ofCode_eq_some_iff a t).1 ha
      split at h
      next make hop => cases h; exact .ri ((dispatchOn_riTable_iff op make).1 hop) t b
      next => cases h
  next =>
    split at h
    next => cases h
    next => cases h
    next t s ha hb =>
      obtain rfl := (Reg.ofCode_eq_some_iff a t).1 ha
      obtain rfl := (Reg.ofCode_eq_some_iff b s).1 hb
      split at h
      next make hop => cases h; exact .rr ((dispatchOn_rrTable_iff op make).1 hop) t s
      next => cases h

theorem decodeRecord_of_denotes {r : Record} {i : Instr} (h : Denotes r i) : decodeRecord r = .ok i := by
  cases h with
  | @branch op make hmem a b =>
    have hform : formOf op = .branch := formOf_of_mem_branchTable _ hmem
    simp only [decodeRecord, decodeRecordWith, hform, machineConfig, (dispatchOn_branchTable_iff op make).2 hmem]
  | @ri op make hmem t b =>
    have hform : formOf op = .ri := formOf_of_mem_riTable _ hmem
    simp only [decodeRecord, decodeRecordWith, hform, Reg.ofCode_code, (dispatchOn_riTable_iff op make).2 hmem]
  | @rr op make hmem t s =>
    have hform : formOf op = .rr := formOf_of_mem_rrTable _ hmem
    simp only [decodeRecord, decodeRecordWith, hform, Reg.ofCode_code, (dispatchOn_rrTable_iff op make).2 hmem]

/-- What the decoder accepts and what it answers, said once (R61, R64). -/
theorem decodeRecord_eq_ok_iff (r : Record) (i : Instr) : decodeRecord r = .ok i ↔ Denotes r i :=
  ⟨denotes_of_decodeRecord, decodeRecord_of_denotes⟩

theorem Record.wellFormed_iff (r : Record) :
    r.wellFormed = true ↔ r.op ∈ branchOpcodes ∨ (r.op ∈ riOpcodes ∧ r.a ∈ regCodes)
      ∨ (r.op ∈ rrOpcodes ∧ r.a ∈ regCodes ∧ r.b ∈ regCodes) := by
  simp [Record.wellFormed, or_assoc, and_assoc]

/-- The tables and the spec's lists of valid records (WellFormed) agree. -/
theorem exists_denotes_iff_wellFormed (r : Record) : (∃ i, Denotes r i) ↔ r.wellFormed = true := by
  rw [Record.wellFormed_iff]
  constructor
  · rintro ⟨i, h⟩
    cases h with
    | @branch op make hmem a b => exact .inl ((mem_branchOpcodes_iff op).2 ⟨make, hmem⟩)
    | @ri op make hmem t b =>
      exact .inr (.inl ⟨(mem_riOpcodes_iff op).2 ⟨make, hmem⟩, (mem_regCodes_iff _).2 ⟨t, rfl⟩⟩)
    | @rr op make hmem t s =>
      exact .inr (.inr ⟨(mem_rrOpcodes_iff op).2 ⟨make, hmem⟩, (mem_regCodes_iff _).2 ⟨t, rfl⟩,
        (mem_regCodes_iff _).2 ⟨s, rfl⟩⟩)
  · obtain ⟨op, a, b⟩ := r
    simp only [mem_branchOpcodes_iff, mem_riOpcodes_iff, mem_rrOpcodes_iff, mem_regCodes_iff]
    rintro (⟨make, hmem⟩ | ⟨⟨make, hmem⟩, t, rfl⟩ | ⟨⟨make, hmem⟩, ⟨t, rfl⟩, s, rfl⟩)
    · exact ⟨_, .branch hmem a b⟩
    · exact ⟨_, .ri hmem t b⟩
    · exact ⟨_, .rr hmem t s⟩

/-! ### The encoder -/

/-- An encoded instruction is a record the tables read as that instruction (R70). -/
theorem denotes_encode (i : Instr) : Denotes (encode i) i := by
  cases i with
  | add t s | sub t s | lsh t s | rsh t s | and t s | or t s | xor t s | cmp t s | mov t s =>
    exact .rr (by simp [rrTable]) t s
  | addv t imm | subv t imm | lshv t imm | rshv t imm | andv t imm | orv t imm | xorv t imm | cmpv t imm | movv t imm =>
    exact .ri (by simp [riTable]) t imm
  | br a | be a | bne a | bg a | bl a => exact .branch (by simp [branchTable]) a 0x00

theorem encode_of_mem_branchTable : ∀ row ∈ branchTable, ∀ a, encode (row.2 a) = encodeBranch row.1 a := by
  simp [branchTable, encode]

theorem encode_of_mem_riTable : ∀ row ∈ riTable, ∀ t imm, encode (row.2 t imm) = encodeRi row.1 t imm := by
  simp [riTable, encode]

theorem encode_of_mem_rrTable : ∀ row ∈ rrTable, ∀ t s, encode (row.2 t s) = encodeRr row.1 t s := by
  simp [rrTable, encode]

/-- Encoding restores every byte of a record but a branch's ignored one (D28). -/
theorem encode_of_denotes {r : Record} {i : Instr} (h : Denotes r i) :
    encode i = { op := r.op, a := r.a, b := if formOf r.op = .branch then 0x00 else r.b } := by
  cases h with
  | @branch op make hmem a b =>
    have hform : formOf op = .branch := formOf_of_mem_branchTable _ hmem
    simp [encode_of_mem_branchTable _ hmem, encodeBranch, hform]
  | @ri op make hmem t b =>
    have hform : formOf op = .ri := formOf_of_mem_riTable _ hmem
    simp [encode_of_mem_riTable _ hmem, encodeRi, hform]
  | @rr op make hmem t s =>
    have hform : formOf op = .rr := formOf_of_mem_rrTable _ hmem
    simp [encode_of_mem_rrTable _ hmem, encodeRr, hform]

theorem decodeRecord_encode (i : Instr) : decodeRecord (encode i) = .ok i := decodeRecord_of_denotes (denotes_encode i)

/-! ### The form tests -/

theorem and_eq_mask_iff (op mask : Byte) :
    op &&& mask = mask ↔ ∀ i : Fin 8, mask.getLsbD i = true → op.getLsbD i = true := by
  constructor
  · intro h i hi
    rw [← h, BitVec.getLsbD_and, Bool.and_eq_true] at hi
    exact hi.1
  · intro h
    refine BitVec.eq_of_getLsbD_eq fun i hi => ?_
    rw [BitVec.getLsbD_and]
    cases hmask : mask.getLsbD i with
    | false => exact Bool.and_false _
    | true => rw [h ⟨i, hi⟩ hmask]; rfl

theorem and_branchMask_iff (op : Byte) : op &&& 0x50 = 0x50 ↔ op.getLsbD 6 = true ∧ op.getLsbD 4 = true := by
  rw [and_eq_mask_iff, and_comm]
  simp [Fin.forall_fin_succ]

theorem and_riMask_iff (op : Byte) : op &&& 0x01 = 0x01 ↔ op.getLsbD 0 = true := by
  rw [and_eq_mask_iff]
  simp

/-- The two tests of R52, in their order, on the bits of the opcode. -/
theorem formOf_eq (op : Byte) :
    formOf op =
      if op.getLsbD 6 = true ∧ op.getLsbD 4 = true then .branch else if op.getLsbD 0 = true then .ri else .rr := by
  simp only [formOf, and_branchMask_iff, and_riMask_iff]

/-- Counting over the opcode map row by row, a row being the 16 opcodes of one high digit. -/
theorem countP_range_rows (p : Nat → Bool) (rows : Nat) :
    (List.range (16 * rows)).countP p =
      ((List.range rows).map fun row => (List.range 16).countP fun column => p (16 * row + column)).sum := by
  induction rows with
  | zero => rfl
  | succ rows ih =>
    rw [Nat.mul_succ, List.range_add, List.countP_append, ih, List.countP_map, List.range_succ (n := rows),
      List.map_append, List.sum_append, List.map_singleton, List.sum_singleton]
    rfl

theorem countP_formOf_branch : (List.range 256).countP (fun n => formOf (BitVec.ofNat 8 n) == .branch) = 64 :=
  (countP_range_rows _ 16).trans (by decide)

theorem countP_formOf_ri : (List.range 256).countP (fun n => formOf (BitVec.ofNat 8 n) == .ri) = 96 :=
  (countP_range_rows _ 16).trans (by decide)

theorem countP_formOf_rr : (List.range 256).countP (fun n => formOf (BitVec.ofNat 8 n) == .rr) = 96 :=
  (countP_range_rows _ 16).trans (by decide)

/-! ### A whole stream -/

@[simp] theorem Record.length_bytes (r : Record) : r.bytes.length = 3 := rfl

theorem Record.bytes_append (r : Record) (rest : List Byte) : r.bytes ++ rest = r.op :: r.a :: r.b :: rest := rfl

theorem decodeRecords_bytes_append_of_ok {r : Record} {i : Instr} (h : decodeRecord r = .ok i) (rest : List Byte) :
    decodeRecords (r.bytes ++ rest) = (decodeRecords rest).map (i :: ·) := by
  rw [Record.bytes_append, decodeRecords, h]
  cases decodeRecords rest <;> rfl

theorem decodeRecords_bytes_append_of_error {r : Record} {e : DecodeError} (h : decodeRecord r = .error e)
    (rest : List Byte) : decodeRecords (r.bytes ++ rest) = .error e := by
  rw [Record.bytes_append, decodeRecords, h]

theorem length_of_decodeRecords {bytes : List Byte} {prog : List Instr} (h : decodeRecords bytes = .ok prog) :
    3 * prog.length = bytes.length := by
  fun_induction decodeRecords bytes generalizing prog with
  | case1 => cases h; rfl
  | case2 => cases h
  | case3 => cases h
  | case4 op a b rest i hrec prog hrest ih =>
    cases h
    have := ih hrest
    simp only [List.length_cons]
    omega
  | case5 => cases h

theorem decodeRecords_encodeProgram (prog : List Instr) : decodeRecords (encodeProgram prog) = .ok prog := by
  induction prog with
  | nil => rfl
  | cons i prog ih => rw [encodeProgram, decodeRecords_bytes_append_of_ok (decodeRecord_encode i), ih]; rfl

theorem decodeStream_encodeProgram {prog : List Instr} (hne : prog ≠ []) :
    decodeStream (encodeProgram prog) = .ok prog := by
  have hpos := List.length_pos_iff.2 hne
  have hlength := length_of_decodeRecords (decodeRecords_encodeProgram prog)
  rw [Machine.decodeStream_eq, if_neg (by omega), decodeRecords_encodeProgram]

/-- Decoding stops at the first record that raises, whatever follows it (R62, D9). -/
theorem decodeRecords_first_error {good : List Record} {bad : Record} {e : DecodeError}
    (hgood : ∀ r ∈ good, ∃ i, decodeRecord r = .ok i) (hbad : decodeRecord bad = .error e) (rest : List Byte) :
    decodeRecords (good.flatMap Record.bytes ++ bad.bytes ++ rest) = .error e := by
  induction good with
  | nil => exact decodeRecords_bytes_append_of_error hbad rest
  | cons r good ih =>
    obtain ⟨⟨i, hi⟩, hgood⟩ := List.forall_mem_cons.1 hgood
    rw [List.flatMap_cons, List.append_assoc, List.append_assoc, decodeRecords_bytes_append_of_ok hi,
      ← List.append_assoc, ih hgood]
    rfl

theorem length_flatMap_bytes (records : List Record) : (records.flatMap Record.bytes).length = 3 * records.length := by
  induction records with
  | nil => rfl
  | cons r records ih => simp [ih]; omega

theorem decodeStream_first_error {good : List Record} {bad : Record} {rest : List Byte} {e : DecodeError}
    (hgood : ∀ r ∈ good, ∃ i, decodeRecord r = .ok i) (hbad : decodeRecord bad = .error e)
    (hrest : rest.length % 3 = 0) :
    decodeStream (good.flatMap Record.bytes ++ bad.bytes ++ rest) = .error e := by
  have hlength : (good.flatMap Record.bytes ++ bad.bytes ++ rest).length = 3 * good.length + 3 + rest.length := by
    rw [List.length_append, List.length_append, length_flatMap_bytes, Record.length_bytes]
  rw [Machine.decodeStream_eq, if_neg (by rw [hlength]; omega), decodeRecords_first_error hgood hbad]

/-- Record `k` of a stream that decodes is the instruction at index `k` (R51). -/
theorem decodeRecord_at_of_decodeRecords {bytes : List Byte} {prog : List Instr} (h : decodeRecords bytes = .ok prog)
    {k : Nat} {op a b : Byte} (hop : bytes[3 * k]? = some op) (ha : bytes[3 * k + 1]? = some a)
    (hb : bytes[3 * k + 2]? = some b) : ∃ i, decodeRecord ⟨op, a, b⟩ = .ok i ∧ prog[k]? = some i := by
  fun_induction decodeRecords bytes generalizing prog k with
  | case1 => cases hop
  | case2 => cases h
  | case3 => cases h
  | case4 op' a' b' rest i hrec prog hrest ih =>
    cases h
    cases k with
    | zero =>
      cases hop; cases ha; cases hb
      exact ⟨i, hrec, rfl⟩
    | succ k => exact ih hrest hop ha hb
  | case5 => cases h

theorem decodeRecords_of_decodeStream {bytes : List Byte} {prog : List Instr} (h : decodeStream bytes = .ok prog) :
    decodeRecords bytes = .ok prog := by
  rw [Machine.decodeStream_eq] at h
  split at h
  · cases h
  · exact h

end Sys2Proof

namespace Sys2Proof.Machine

/-! ### What a load makes of a stream -/

theorem load_of_ok {bytes : List Byte} {prog : List Instr} (s : State) (h : decodeStream bytes = .ok prog) :
    s.load bytes = s.installProgram prog := by
  simp [State.load, h]

theorem load_of_error {bytes : List Byte} {e : DecodeError} (s : State) (h : decodeStream bytes = .error e) :
    s.load bytes = s.raise e := by
  simp [State.load, h]

/-- A program is valid after a load only if the stream decoded to it. -/
theorem load_eq_installProgram_of_valid {s : State} {bytes : List Byte} (h : (s.load bytes).progValid = true) :
    ∃ prog, decodeStream bytes = .ok prog ∧ s.load bytes = s.installProgram prog := by
  obtain hok | ⟨e, -, hload⟩ := load_cases s bytes
  · exact hok
  · rw [hload] at h
    cases h

theorem step_eq_exec_of_prog {s : State} {i : Instr} (hvalid : s.progValid = true)
    (hi : s.prog[(s.reg .pc).toNat]? = some i) : step s = exec i s := by
  simp [step, State.fetch, hvalid, hi]

/-! ### The listings -/

theorem getElem?_numberedFrom (first : Nat) (prog : List Instr) (k : Nat) :
    (numberedFrom first prog)[k]? = prog[k]?.map fun i => lineNumber (first + k) ++ ": " ++ disasm i := by
  induction prog generalizing first k with
  | nil => rfl
  | cons i prog ih =>
    cases k with
    | zero => rfl
    | succ k =>
      rw [numberedFrom, List.getElem?_cons_succ, List.getElem?_cons_succ, ih, Nat.add_right_comm, Nat.add_assoc]

theorem lineNumber_of_lt_ten {n : Nat} (h : n < 10) : lineNumber n = "00" ++ n.repr := by
  have hlength : n.repr.length = 1 := by rw [Nat.repr_of_lt h, String.length_singleton]
  rw [lineNumber, hlength]
  rfl

theorem lineNumber_of_lt_hundred {n : Nat} (hlo : 10 ≤ n) (hhi : n < 100) : lineNumber n = "0" ++ n.repr := by
  have hle : n.repr.length ≤ 2 := (Nat.length_repr_le_iff (by omega)).2 hhi
  have hgt : 1 < n.repr.length := by rw [← not_le, Nat.length_repr_le_iff (by omega)]; omega
  rw [lineNumber, show n.repr.length = 2 by omega]
  rfl

theorem lineNumber_of_hundred_le {n : Nat} (h : 100 ≤ n) : lineNumber n = n.repr := by
  have hgt : 2 < n.repr.length := by rw [← not_le, Nat.length_repr_le_iff (by omega)]; omega
  rw [lineNumber, show 3 - n.repr.length = 0 by omega]
  exact String.empty_append

theorem listing_of_loadedProgram_none {s : State} (h : s.loadedProgram = none) :
    s.listing = none ∧ s.numbered = none := by
  simp [State.listing, State.numbered, h]

theorem listing_of_loadedProgram {s : State} {prog : List Instr} (h : s.loadedProgram = some prog) :
    s.listing = some (joinLines (disasmProgram prog)) ∧ s.numbered = some (joinLines (numberedListing prog)) := by
  simp [State.listing, State.numbered, h]

/-! ### The obligations of the encoding family -/

/-- Settles O10: the encoded record denotes the instruction, and the decoder reads off what a record denotes. -/
theorem decodeOfEncodeIsIdentity : Obligations.DecodeOfEncodeIsIdentity := decodeRecord_encode

/-- Settles O14, by induction on the program: each record decodes to its instruction. -/
theorem loadOfEncodedProgram : Obligations.LoadOfEncodedProgram := by
  intro s prog hne
  rw [load_of_ok s (decodeStream_encodeProgram hne)]
  exact ⟨rfl, rfl, rfl, rfl, fun _ => rfl⟩

/-- Settles O8: the decoder accepts what the tables list, and the tables list what the spec's lists do. -/
theorem decoderAcceptsExactlyWellFormedRecords : Obligations.DecoderAcceptsExactlyWellFormedRecords := by
  intro r
  simp only [decodeRecord_eq_ok_iff]
  exact exists_denotes_iff_wellFormed r

/-- Settles O11: a record that decodes is one the tables read, and the encoder writes its row back. -/
theorem encodeOfDecodeRestoresTheRecord : Obligations.EncodeOfDecodeRestoresTheRecord :=
  fun _ _ h => encode_of_denotes (denotes_of_decodeRecord h)

/-- Settles O13: the load raises the error the stream's decoding ends with. -/
theorem firstFailingRecordIsReported : Obligations.FirstFailingRecordIsReported := by
  intro s good bad rest e hgood hbad hrest
  rw [load_of_error s (decodeStream_first_error hgood hbad hrest)]
  exact ⟨rfl, rfl, rfl, fun _ => rfl⟩

/-- Settles O17: the load installed the decoded records, so the fetch at PC answers the decoded record. -/
theorem stepRunsTheRecordOfTheLoadedStream : Obligations.StepRunsTheRecordOfTheLoadedStream := by
  intro s bytes hvalid
  obtain ⟨prog, hdec, hload⟩ := load_eq_installProgram_of_valid hvalid
  have hrecords := decodeRecords_of_decodeStream hdec
  rw [hload]
  refine ⟨length_of_decodeRecords hrecords, fun op a b hop ha hb => ?_⟩
  obtain ⟨i, hi, hat⟩ := decodeRecord_at_of_decodeRecords hrecords hop ha hb
  exact ⟨i, hi, hat, step_eq_exec_of_prog rfl hat⟩

/-- Settles O47, from the listing read at an index and the width of a decimal numeral. -/
theorem listingHasOneLinePerInstruction : Obligations.ListingHasOneLinePerInstruction := by
  refine ⟨fun prog k => ⟨List.getElem?_map, ?_⟩, fun n => ⟨?_, ?_, ?_⟩⟩
  · rw [numberedListing, getElem?_numberedFrom, Nat.add_comm 1 k]
  · exact lineNumber_of_lt_ten
  · exact lineNumber_of_lt_hundred
  · exact lineNumber_of_hundred_le

/-- Settles O6: the form follows the bits, and the three forms are counted over all opcodes. -/
theorem formIsDecidedByTwoTests : Obligations.FormIsDecidedByTwoTests := by
  refine ⟨fun op => ?_, countP_formOf_branch, countP_formOf_ri, countP_formOf_rr⟩
  rw [formOf_eq]
  by_cases hbranch : op.getLsbD 6 = true ∧ op.getLsbD 4 = true
  · rw [if_pos hbranch]
    simp only [hbranch, reduceCtorEq, and_self, not_true, false_and]
  · rw [if_neg hbranch]
    cases op.getLsbD 0 <;> simp only [hbranch] <;> decide

/-- Settles O7: each word is evaluated. -/
theorem wordsOfTheSpecDecode : Obligations.WordsOfTheSpecDecode := by
  refine ⟨?_, ?_, ?_, ?_, ?_, ?_⟩ <;> decide

/-- Settles O51: the listings are those of the loaded program, and a failed load leaves none. -/
theorem listingOfTheLoadedProgram : Obligations.ListingOfTheLoadedProgram := by
  intro s
  refine ⟨fun h => listing_of_loadedProgram (by simp [State.loadedProgram, h]),
    fun h => listing_of_loadedProgram_none (by simp [State.loadedProgram, h]), fun bytes e h => ?_⟩
  rw [load_of_error s h]
  exact listing_of_loadedProgram_none rfl

end Sys2Proof.Machine
end

section
/-! SUPPORT and PROOFS. The arithmetic, shift and bitwise instructions (41_alu): the two forms of each ALU operation, and one
theorem for all of them that the obligations of the family are read off. -/

namespace Sys2Proof.Machine

/-! ### The two instruction forms of an ALU operation -/

/-- The rr-form instruction of an ALU operation. -/
def AluOp.rr : AluOp → Reg → Reg → Instr
  | .add => .add | .sub => .sub | .lsh => .lsh | .rsh => .rsh | .and => .and | .or => .or | .xor => .xor

/-- The ri-form instruction of an ALU operation. -/
def AluOp.ri : AluOp → Reg → Byte → Instr
  | .add => .addv | .sub => .subv | .lsh => .lshv | .rsh => .rshv | .and => .andv | .or => .orv | .xor => .xorv

/-- The opcode of the rr form (R57). -/
def AluOp.rrOpcode : AluOp → Byte
  | .add => 0x10 | .sub => 0x12 | .lsh => 0x20 | .rsh => 0x22 | .and => 0x30 | .or => 0x32 | .xor => 0x34

/-- The opcode of the ri form (R58). -/
def AluOp.riOpcode : AluOp → Byte
  | .add => 0x11 | .sub => 0x13 | .lsh => 0x21 | .rsh => 0x23 | .and => 0x31 | .or => 0x33 | .xor => 0x35

/-- The text of a line up to the target's name (R72). -/
def AluOp.lineHead : AluOp → String
  | .add => "ADD %" | .sub => "SUB %" | .lsh => "LSH %" | .rsh => "RSH %"
  | .and => "AND %" | .or => "OR  %" | .xor => "XOR %"

/-- The result as a number, from the operands as numbers: the spec's reading of R82 to R95, with the shift amount modulo 8
(D10). The model's `alu` is tied to it by `alu_toNat`. -/
def AluOp.natResult : AluOp → Nat → Nat → Nat
  | .add, a, b => (a + b) % 256
  | .sub, a, b => (a + 256 - b) % 256
  | .lsh, a, b => a * 2 ^ (b % 8) % 256
  | .rsh, a, b => a / 2 ^ (b % 8)
  | .and, a, b => a &&& b
  | .or, a, b => a ||| b
  | .xor, a, b => a ^^^ b

theorem AluOp.rr_mem_rrTable (op : AluOp) : (op.rrOpcode, op.rr) ∈ rrTable := by
  cases op <;> simp [AluOp.rrOpcode, AluOp.rr, rrTable]

theorem AluOp.ri_mem_riTable (op : AluOp) : (op.riOpcode, op.ri) ∈ riTable := by
  cases op <;> simp [AluOp.riOpcode, AluOp.ri, riTable]

theorem exec_aluRr (op : AluOp) (t r : Reg) (s : State) :
    exec (op.rr t r) s = execAluWith machineConfig op t (.reg r) s := by cases op <;> rfl

theorem exec_aluRi (op : AluOp) (t : Reg) (imm : Byte) (s : State) :
    exec (op.ri t imm) s = execAluWith machineConfig op t (.imm imm) s := by cases op <;> rfl

/-! ### The lines -/

/-- An rr line whose mnemonic and first separator are known as one text. -/
theorem lineRr_of_head {mnemonic head : String} (h : mnemonic ++ " %" = head) (t r : Reg) :
    lineRr mnemonic t r = head ++ regName t ++ ", %" ++ regName r := by rw [lineRr, h]

/-- An ri line whose mnemonic and first separator are known as one text. -/
theorem lineRi_of_head {mnemonic head : String} (h : mnemonic ++ " %" = head) (t : Reg) (imm : Byte) :
    lineRi mnemonic t imm = head ++ regName t ++ ", $" ++ decimal imm := by rw [lineRi, h]

theorem disasm_aluRr (op : AluOp) (t r : Reg) :
    disasm (op.rr t r) = op.lineHead ++ regName t ++ ", %" ++ regName r := by
  cases op <;> exact lineRr_of_head (by decide) t r

theorem disasm_aluRi (op : AluOp) (t : Reg) (imm : Byte) :
    disasm (op.ri t imm) = op.lineHead ++ regName t ++ ", $" ++ decimal imm := by
  cases op <;> exact lineRi_of_head (by decide) t imm

/-! ### The results -/

/-- The ALU of the machine computes the numbers the spec gives (R81). -/
theorem alu_toNat (op : AluOp) (a b : Byte) :
    (alu machineConfig op a b).toNat = op.natResult a.toNat b.toNat := by
  cases op with
  | add => exact BitVec.toNat_add a b
  | sub =>
    have hb : b.toNat < 256 := b.isLt
    simp only [alu, AluOp.natResult, BitVec.toNat_sub]
    congr 1
    omega
  | lsh => simp [alu, AluOp.natResult, shiftAmount, machineConfig, Nat.shiftLeft_eq]
  | rsh => simp [alu, AluOp.natResult, shiftAmount, machineConfig, Nat.shiftRight_eq_div_pow]
  | and => exact BitVec.toNat_and a b
  | or => exact BitVec.toNat_or a b
  | xor => exact BitVec.toNat_xor a b

theorem execAluWith_natResult (op : AluOp) (t : Reg) (src : Operand) (s : State) :
    ∃ s', execAluWith machineConfig op t src s = .next s'
      ∧ Retires s s' t (op.natResult (s.reg t).toNat (s.operand src).toNat) := by
  rw [← alu_toNat]
  exact execAluWith_next op t src s

/-! ### The meaning of an ALU instruction, in each form -/

/-- An rr-form ALU instruction: its record, its line, and the retired result (R57, R72, R80). -/
theorem aluRr_meaning (op : AluOp) (t r : Reg) (s : State) :
    decodeRecord { op := op.rrOpcode, a := t.code, b := r.code } = .ok (op.rr t r)
      ∧ disasm (op.rr t r) = op.lineHead ++ regName t ++ ", %" ++ regName r
      ∧ ∃ s', exec (op.rr t r) s = .next s'
        ∧ Retires s s' t (op.natResult (s.reg t).toNat (s.reg r).toNat) := by
  refine ⟨decodeRecord_of_denotes (.rr op.rr_mem_rrTable t r), disasm_aluRr op t r, ?_⟩
  rw [exec_aluRr]
  exact execAluWith_natResult op t (.reg r) s

/-- An ri-form ALU instruction: its record, its line, and the retired result (R58, R72, R80). -/
theorem aluRi_meaning (op : AluOp) (t : Reg) (imm : Byte) (s : State) :
    decodeRecord { op := op.riOpcode, a := t.code, b := imm } = .ok (op.ri t imm)
      ∧ disasm (op.ri t imm) = op.lineHead ++ regName t ++ ", $" ++ decimal imm
      ∧ ∃ s', exec (op.ri t imm) s = .next s'
        ∧ Retires s s' t (op.natResult (s.reg t).toNat imm.toNat) := by
  refine ⟨decodeRecord_of_denotes (.ri op.ri_mem_riTable t imm), disasm_aluRi op t imm, ?_⟩
  rw [exec_aluRi]
  exact execAluWith_natResult op t (.imm imm) s

/-! ### The obligations of the ALU family -/

/-- Settles O23: both forms of the ALU's addition. -/
theorem addMeaning : Obligations.AddMeaning :=
  fun t s => ⟨fun r => aluRr_meaning .add t r s, fun imm => aluRi_meaning .add t imm s⟩

/-- Settles O24: both forms of the ALU's subtraction. -/
theorem subMeaning : Obligations.SubMeaning :=
  fun t s => ⟨fun r => aluRr_meaning .sub t r s, fun imm => aluRi_meaning .sub t imm s⟩

/-- Settles O25: both forms of the ALU's left shift. -/
theorem lshMeaning : Obligations.LshMeaning :=
  fun t s => ⟨fun r => aluRr_meaning .lsh t r s, fun imm => aluRi_meaning .lsh t imm s⟩

/-- Settles O26: both forms of the ALU's right shift. -/
theorem rshMeaning : Obligations.RshMeaning :=
  fun t s => ⟨fun r => aluRr_meaning .rsh t r s, fun imm => aluRi_meaning .rsh t imm s⟩

/-- Settles O27: both forms of the ALU's bitwise and. -/
theorem andMeaning : Obligations.AndMeaning :=
  fun t s => ⟨fun r => aluRr_meaning .and t r s, fun imm => aluRi_meaning .and t imm s⟩

/-- Settles O28: both forms of the ALU's bitwise or. -/
theorem orMeaning : Obligations.OrMeaning :=
  fun t s => ⟨fun r => aluRr_meaning .or t r s, fun imm => aluRi_meaning .or t imm s⟩

/-- Settles O29: both forms of the ALU's exclusive or. -/
theorem xorMeaning : Obligations.XorMeaning :=
  fun t s => ⟨fun r => aluRr_meaning .xor t r s, fun imm => aluRi_meaning .xor t imm s⟩

end Sys2Proof.Machine
end

section
/-! SUPPORT and PROOFS. The move and compare instructions (42_mov_cmp), and what a branch decides right after a compare. -/

namespace Sys2Proof.Machine

/-! ### The lines -/

theorem disasm_movv (t : Reg) (imm : Byte) : disasm (.movv t imm) = "MOV %" ++ regName t ++ ", $" ++ decimal imm :=
  lineRi_of_head (by decide) t imm

theorem disasm_cmp (t r : Reg) : disasm (.cmp t r) = "CMP %" ++ regName t ++ ", %" ++ regName r :=
  lineRr_of_head (by decide) t r

theorem disasm_cmpv (t : Reg) (imm : Byte) : disasm (.cmpv t imm) = "CMP %" ++ regName t ++ ", $" ++ decimal imm :=
  lineRi_of_head (by decide) t imm

/-! ### What a compare leaves in CR -/

/-- A compare retires to CR the number R102 gives: the difference modulo 256. -/
theorem execCmpWith_retires_natSub (t : Reg) (src : Operand) (s : State) :
    ∃ s', execCmpWith machineConfig t src s = .next s'
      ∧ Retires s s' .cr (((s.reg t).toNat + 256 - (s.operand src).toNat) % 256) := by
  have hsub := alu_toNat .sub (s.reg t) (s.operand src)
  rw [AluOp.natResult] at hsub
  rw [← hsub]
  exact execCmpWith_next t src s

/-- After a compare CR reads as the wrapped difference of the operands, as a byte. -/
theorem execCmpWith_cr (t : Reg) (src : Operand) (s : State) :
    ∃ m, execCmpWith machineConfig t src s = .next m ∧ m.reg .cr = s.reg t - s.operand src := by
  obtain ⟨m, hexec, hwritten, -⟩ := execCmpWith_next t src s
  obtain ⟨hcr, -⟩ := hwritten (by decide)
  exact ⟨m, hexec, BitVec.eq_of_toNat_eq hcr⟩

/-- Both forms of the compare, with the operands `A` and `B` as read, leave `A - B` in CR (R102, R103). -/
theorem exec_compare_cr {i : Instr} {A B : Byte} {s : State}
    (hi : (∃ t r, i = .cmp t r ∧ A = s.reg t ∧ B = s.reg r) ∨ (∃ t, i = .cmpv t B ∧ A = s.reg t)) :
    ∃ m, exec i s = .next m ∧ m.reg .cr = A - B := by
  obtain ⟨t, r, rfl, rfl, rfl⟩ | ⟨t, rfl, rfl⟩ := hi
  · exact execCmpWith_cr t (.reg r) s
  · exact execCmpWith_cr t (.imm B) s

/-! ### The conditions on a difference -/

/-- The spec's signed reading is the library's (R7, I7). -/
theorem signed8_eq_toInt (v : Byte) : signed8 v = v.toInt := by
  rw [signed8, BitVec.toInt_eq_toNat_cond]
  split <;> split <;> omega

/-- The signed reading of a difference is 0 exactly where the operands are equal, since the difference is. -/
theorem signed8_sub_eq_zero_iff (A B : Byte) : signed8 (A - B) = 0 ↔ A = B :=
  calc signed8 (A - B) = 0
    _ ↔ (A - B).toInt = (0 : Byte).toInt := by rw [signed8_eq_toInt]; rfl
    _ ↔ A - B = 0 := BitVec.toInt_inj
    _ ↔ A = B := sub_eq_zero

theorem cond_be_sub_iff (A B : Byte) : BranchKind.be.cond (A - B) = true ↔ A = B := by
  simp [BranchKind.cond, condEq, signed8_sub_eq_zero_iff]

theorem cond_bne_sub_iff (A B : Byte) : BranchKind.bne.cond (A - B) = true ↔ A ≠ B := by
  simp [BranchKind.cond, condNe, signed8_sub_eq_zero_iff]

theorem cond_bg_iff (v : Byte) : BranchKind.bg.cond v = true ↔ 0 < v.toInt := by
  simp [BranchKind.cond, condGt, signed8_eq_toInt]

theorem cond_bl_iff (v : Byte) : BranchKind.bl.cond v = true ↔ v.toInt < 0 := by
  simp [BranchKind.cond, condLt, signed8_eq_toInt]

/-! ### A branch where CR is known -/

/-- A branch read with CR's value and with its condition in other words. -/
theorem execBranch_next_of_cr {kind : BranchKind} {v : Byte} {m : State} {p : Prop} [Decidable p]
    (hcr : m.reg .cr = v) (hcond : kind.cond v = true ↔ p) (a : Byte) :
    ∃ e, execBranch kind a m = .next e ∧ Jumps m e (if p then a.toNat else ((m.reg .pc).toNat + 1) % 256) := by
  obtain ⟨e, hexec, hjump⟩ := execBranch_next kind a m
  simp only [hcr, hcond] at hjump
  exact ⟨e, hexec, hjump⟩

/-! ### The obligations of the move and compare family -/

/-- Settles O30: the source operand of either form is retired to the target. -/
theorem movMeaning : Obligations.MovMeaning :=
  fun t s =>
    ⟨fun r => ⟨decodeRecord_encode (.mov t r), disasm_mov t r, execMovWith_next t (.reg r) s⟩,
      fun imm => ⟨decodeRecord_encode (.movv t imm), disasm_movv t imm, execMovWith_next t (.imm imm) s⟩⟩

/-- Settles O31: the wrapped difference of either form is retired to CR. -/
theorem cmpMeaning : Obligations.CmpMeaning :=
  fun t s =>
    ⟨fun r => ⟨decodeRecord_encode (.cmp t r), disasm_cmp t r, execCmpWith_retires_natSub t (.reg r) s⟩,
      fun imm => ⟨decodeRecord_encode (.cmpv t imm), disasm_cmpv t imm, execCmpWith_retires_natSub t (.imm imm) s⟩⟩

/-- Settles O38: the compare leaves the difference in CR, and each branch reads its condition off that difference. -/
theorem compareThenBranch : Obligations.CompareThenBranch := by
  intro i A B a s hi
  obtain ⟨m, hexec, hcr⟩ := exec_compare_cr hi
  exact ⟨m, hexec,
    execBranch_next_of_cr hcr (cond_be_sub_iff A B) a,
    execBranch_next_of_cr hcr (cond_bne_sub_iff A B) a,
    execBranch_next_of_cr hcr (cond_bg_iff (A - B)) a,
    execBranch_next_of_cr hcr (cond_bl_iff (A - B)) a⟩

end Sys2Proof.Machine
end

section
/-! SUPPORT and PROOFS. The branches and the program counter (43_branch_pc): what a fetch answers, the step at an index and
past the end of the program, the ways out of an exhausted state, and one theorem for the five branches. -/

namespace Sys2Proof.Machine

/-! ### The fetch and `no_instr` -/

/-- A fetch answers exactly below the length of a valid program (R36). -/
theorem fetch_ne_none_iff (s : State) (index : Byte) :
    s.fetch index ≠ none ↔ s.progValid = true ∧ index.toNat < s.len := by
  cases h : s.progValid <;> simp [State.fetch, State.len, h]

theorem fetch_eq_none_of_len_le {s : State} {index : Byte} (h : s.len ≤ index.toNat) : s.fetch index = none := by
  by_contra hfetch
  obtain ⟨-, hlt⟩ := (fetch_ne_none_iff s index).1 hfetch
  omega

/-- The fetch reads the store only. -/
theorem fetch_of_sameStore {s s' : State} (h : SameStore s s') (index : Byte) : s'.fetch index = s.fetch index := by
  obtain ⟨hprog, hvalid, -, -⟩ := h
  rw [State.fetch, State.fetch, hprog, hvalid]

theorem len_of_sameStore {s s' : State} (h : SameStore s s') : s'.len = s.len := congrArg List.length h.1

/-- What the status output says (R25). -/
theorem noInstr_iff (s : State) : s.noInstr = true ↔ s.progValid = true ∧ s.len ≤ (s.reg .pc).toNat := by
  simp [State.noInstr]

theorem noInstr_eq_false_of_prog {s : State} {i : Instr} (h : s.prog[(s.reg .pc).toNat]? = some i) :
    s.noInstr = false := by
  obtain ⟨hlt, -⟩ := List.getElem?_eq_some_iff.1 h
  rw [Bool.eq_false_iff, ne_eq, noInstr_iff, State.len]
  omega

theorem fetch_eq_none_of_noInstr {s : State} (h : s.noInstr = true) : s.fetch (s.reg .pc) = none :=
  fetch_eq_none_of_len_le ((noInstr_iff s).1 h).2

/-! ### The step -/

/-- Every instruction answers a next state (R138). -/
theorem exec_answers (i : Instr) (s : State) : ∃ t, exec i s = .next t := by
  obtain ⟨t, v, -, -, hexec⟩ | ⟨-, taken, hexec, -⟩ := exec_cases i s
  · exact ⟨_, hexec⟩
  · exact ⟨_, hexec⟩

/-- An exhausted step is a no-op (D14). -/
theorem step_of_noInstr {s : State} (h : s.noInstr = true) : step s = .next s := by
  obtain ⟨hvalid, -⟩ := (noInstr_iff s).1 h
  simp [step, hvalid, fetch_eq_none_of_noInstr h]

/-- The host sees the step's next state, and `no_instr` as it stood before. -/
theorem perform_step_of_next {s t : State} (h : step s = .next t) : s.perform .step = (t, .stepped s.noInstr) := by
  simp [State.perform, State.hostStep, h]

theorem perform_step_of_noInstr {s : State} (h : s.noInstr = true) : s.perform .step = (s, .stepped true) := by
  rw [perform_step_of_next (step_of_noInstr h), h]

theorem runSteps_of_noInstr {s : State} (h : s.noInstr = true) (n : Nat) : runSteps n s = .next s := by
  induction n with
  | zero => rfl
  | succ n ih => exact (runSteps_succ_eq_next_iff n s s).2 ⟨s, step_of_noInstr h, ih⟩

/-! ### The ways out of an exhausted state -/

/-- Reading a register has no side effect, whatever the code (R41, D17). -/
theorem perform_readReg_fst (s : State) (code : Byte) : (s.perform (.readReg code)).1 = s := by
  cases h : Reg.ofCode code <;> simp [State.perform, State.hostRead, h]

/-- A host write changes PC only if its code is PC's. -/
theorem reg_pc_perform_writeReg (s : State) {code : Byte} (v : Byte) (h : code ≠ Reg.pc.code) :
    (s.perform (.writeReg code v)).1.reg .pc = s.reg .pc := by
  cases hcode : Reg.ofCode code with
  | none => rw [perform_writeReg_of_not_mem s v ((Reg.ofCode_eq_none_iff code).1 hcode)]
  | some r =>
    obtain rfl := (Reg.ofCode_eq_some_iff code r).1 hcode
    rw [perform_writeReg_code]
    exact reg_setReg_other s r .pc v fun hpc => h (hpc ▸ rfl)

/-- A load keeps every register (R151, D21). -/
theorem load_reg (s : State) (bytes : List Byte) (r : Reg) : (s.load bytes).reg r = s.reg r := by
  obtain ⟨prog, -, hload⟩ | ⟨e, -, hload⟩ := load_cases s bytes
  · rw [hload, installProgram_reg]
  · rw [hload, raise_reg]

/-! ### The next PC -/

theorem retire_reg_pc {t : Reg} (s : State) (v : Byte) (h : t ≠ .pc) :
    (s.retire machineConfig t v).reg .pc = s.reg .pc + 1 := by
  rw [retire_machine, reg_nextPc, if_pos rfl, reg_setReg_other s t .pc v h.symm]
  rfl

/-- The multiplexer over all instructions that do not write PC (R111): the increment, or the branch's target. -/
theorem exec_reg_pc {i : Instr} {s s' : State} (hdest : destination i ≠ some .pc) (h : exec i s = .next s') :
    s'.reg .pc = s.reg .pc + 1 ∨ branchTarget i = some (s'.reg .pc) := by
  obtain ⟨t, v, ht, -, hexec⟩ | ⟨-, taken, hexec, htarget⟩ := exec_cases i s
  · cases hexec.symm.trans h
    exact .inl (retire_reg_pc s v fun hpc => hdest (hpc ▸ ht))
  · cases hexec.symm.trans h
    rw [reg_nextPc, if_pos rfl]
    cases taken with
    | none => exact .inl rfl
    | some a => exact .inr (htarget a rfl)

/-! ### The five branches -/

/-- The instruction of a branch kind. -/
def BranchKind.instr : BranchKind → Byte → Instr
  | .br => .br | .be => .be | .bne => .bne | .bg => .bg | .bl => .bl

/-- The opcode of a branch kind (R59). -/
def BranchKind.opcode : BranchKind → Byte
  | .br => 0x50 | .be => 0x52 | .bne => 0x54 | .bg => 0x56 | .bl => 0x58

/-- The text of a line up to the target (R72). -/
def BranchKind.lineHead : BranchKind → String
  | .br => "BR  $" | .be => "BE  $" | .bne => "BNE $" | .bg => "BG  $" | .bl => "BL  $"

theorem BranchKind.mem_branchTable (kind : BranchKind) : (kind.opcode, kind.instr) ∈ branchTable := by
  cases kind <;> simp [BranchKind.opcode, BranchKind.instr, branchTable]

theorem exec_branchInstr (kind : BranchKind) (a : Byte) (s : State) :
    exec (kind.instr a) s = execBranch kind a s := by cases kind <;> rfl

/-- A branch line whose mnemonic and separator are known as one text. -/
theorem lineBranch_of_head {mnemonic head : String} (h : mnemonic ++ " $" = head) (a : Byte) :
    lineBranch mnemonic a = head ++ decimal a := by rw [lineBranch, h]

theorem disasm_branchInstr (kind : BranchKind) (a : Byte) : disasm (kind.instr a) = kind.lineHead ++ decimal a := by
  cases kind <;> exact lineBranch_of_head (by decide) a

/-- A branch whose condition on CR is said as `p`: its record with any byte `b`, its line, and the PC update (R59, R72,
R112). -/
theorem branch_meaning (kind : BranchKind) {s : State} {p : Prop} [Decidable p]
    (hcond : kind.cond (s.reg .cr) = true ↔ p) (a : Byte) :
    (∀ b : Byte, decodeRecord { op := kind.opcode, a := a, b := b } = .ok (kind.instr a))
      ∧ disasm (kind.instr a) = kind.lineHead ++ decimal a
      ∧ ∃ s', exec (kind.instr a) s = .next s'
        ∧ Jumps s s' (if p then a.toNat else ((s.reg .pc).toNat + 1) % 256) := by
  refine ⟨fun b => decodeRecord_of_denotes (.branch kind.mem_branchTable a b), disasm_branchInstr kind a, ?_⟩
  rw [exec_branchInstr]
  exact execBranch_next_of_cr rfl hcond a

theorem cond_be_iff (v : Byte) : BranchKind.be.cond v = true ↔ v = 0x00 := by
  simp [BranchKind.cond, condEq, signed8_eq_zero_iff, ← BitVec.toNat_inj]

theorem cond_bne_iff (v : Byte) : BranchKind.bne.cond v = true ↔ v ≠ 0x00 := by
  simp [BranchKind.cond, condNe, signed8_eq_zero_iff, ← BitVec.toNat_inj]

/-- A jump to an index at or past `len` leaves nothing to fetch (R118). -/
theorem Jumps.fetch_eq_none {s s' : State} {next : Nat} (h : Jumps s s' next) (hlen : s.len ≤ next) :
    s'.fetch (s'.reg .pc) = none := by
  obtain ⟨hpc, -, hstore⟩ := h
  exact fetch_eq_none_of_len_le (by rw [len_of_sameStore hstore, hpc]; exact hlen)

/-! ### The obligations of the branch and PC family -/

/-- Settles O19: the step is a no-op, so a run of any length is. -/
theorem exhaustedRunChangesNothing : Obligations.ExhaustedRunChangesNothing :=
  fun _ h => ⟨perform_step_of_noInstr h, runSteps_of_noInstr h⟩

/-- Settles O20, by cases on the operation: one that leaves the store and PC as they are leaves nothing to fetch. -/
theorem exhaustionIsLeftOnlyByTheHost : Obligations.ExhaustionIsLeftOnlyByTheHost := by
  intro s op hno hfetch
  obtain ⟨-, hlen⟩ := (noInstr_iff s).1 hno
  cases op with
  | reset => exact .inr (.inl rfl)
  | load bytes =>
    obtain ⟨-, hlt⟩ := (fetch_ne_none_iff (s.load bytes) ((s.load bytes).reg .pc)).1 hfetch
    rw [load_reg] at hlt
    exact .inr (.inr ⟨bytes, rfl, hlen.trans_lt hlt⟩)
  | step =>
    rw [perform_step_of_noInstr hno] at hfetch
    exact absurd (fetch_eq_none_of_noInstr hno) hfetch
  | readReg code =>
    rw [perform_readReg_fst] at hfetch
    exact absurd (fetch_eq_none_of_noInstr hno) hfetch
  | writeReg code v =>
    by_cases hcode : code = Reg.pc.code
    · subst hcode
      rw [perform_writeReg_code, reg_setReg_same] at hfetch
      obtain ⟨-, hlt⟩ := (fetch_ne_none_iff (s.setReg .pc v) v).1 hfetch
      exact .inl ⟨v, rfl, hlt⟩
    · rw [fetch_of_sameStore (perform_sameStore s rfl), reg_pc_perform_writeReg s v hcode] at hfetch
      exact absurd (fetch_eq_none_of_noInstr hno) hfetch

/-- Settles O32: the condition of `BR` always holds, and a target past the end is not fetched. -/
theorem brAlwaysJumps : Obligations.BrAlwaysJumps := by
  intro a s
  obtain ⟨hdecode, hline, s', hexec, hjump⟩ := branch_meaning .br (s := s) (p := True) (iff_true_intro rfl) a
  rw [if_true] at hjump
  exact ⟨hdecode, hline, s', hexec, hjump, hjump.fetch_eq_none⟩

/-- Settles O33: the signed reading of CR is 0 exactly for the byte 0x00. -/
theorem beJumpsOnZero : Obligations.BeJumpsOnZero := fun a s => branch_meaning .be (cond_be_iff (s.reg .cr)) a

/-- Settles O34: the signed reading of CR is not 0 exactly for the other bytes. -/
theorem bneJumpsOnNonzero : Obligations.BneJumpsOnNonzero := fun a s => branch_meaning .bne (cond_bne_iff (s.reg .cr)) a

/-- Settles O35, with the condition's range as O37 gives it. -/
theorem bgJumpsOnPositive : Obligations.BgJumpsOnPositive := by
  intro a s
  obtain ⟨-, -, -, -, hgt, -⟩ := branchConditionsOnTheWholeByte (s.reg .cr)
  exact branch_meaning .bg hgt a

/-- Settles O36, with the condition's range as O37 gives it. -/
theorem blJumpsOnNegative : Obligations.BlJumpsOnNegative := by
  intro a s
  obtain ⟨-, -, -, -, -, hlt⟩ := branchConditionsOnTheWholeByte (s.reg .cr)
  exact branch_meaning .bl hlt a

/-- Settles O40: without a target only the increment is left, and it wraps at 255. -/
theorem nextPcIsIncrementOrTarget : Obligations.NextPcIsIncrementOrTarget := by
  intro i s s' hdest hexec
  have hnext := exec_reg_pc hdest hexec
  have hincrement (hnone : branchTarget i = none) : s'.reg .pc = s.reg .pc + 1 :=
    hnext.resolve_right (by simp [hnone])
  refine ⟨hnext.imp_left fun h => ?_, hincrement, fun hnone hlast => ?_⟩
  · exact (congrArg BitVec.toNat h).trans (BitVec.toNat_add (s.reg .pc) 1)
  · rw [hincrement hnone, hlast]
    rfl

/-- Settles O16: the step is the instruction's meaning, and an instruction at PC means that `no_instr` is 0. -/
theorem stepRunsFetchedInstruction : Obligations.StepRunsFetchedInstruction := by
  intro s i hvalid hi
  have hstep := step_eq_exec_of_prog hvalid hi
  refine ⟨hstep, fun t hexec => ?_⟩
  rw [perform_step_of_next (hstep.trans hexec), noInstr_eq_false_of_prog hi]

/-- Settles O22: of the step's three cases the refusal is the one without a valid program. -/
theorem stepOfAValidProgramAnswers : Obligations.StepOfAValidProgramAnswers := by
  intro s hvalid
  obtain ⟨hinvalid, -⟩ | ⟨-, -, hstep⟩ | ⟨-, i, -, hstep⟩ := step_cases s
  · rw [hvalid] at hinvalid
    cases hinvalid
  · exact ⟨s, hstep⟩
  · rw [hstep]
    exact exec_answers i s

end Sys2Proof.Machine
end

section
/-! SUPPORT and PROOFS. The exceptions (60_exceptions): the records that raise an error and which, where `InvalidProgram` comes
from, what a failed load leaves behind, and that execution raises nothing. -/

namespace Sys2Proof

/-! ### The records that raise an error -/

/-- The error a bad record raises, by its form (R133 to R136): the register-bearing bytes are checked in order, the opcode
after them (D8). The decoder is tied to it by `decodeRecord_eq_error_iff`. -/
inductive Raises (r : Record) : DecodeError → Prop
  | branchOpcode (hform : formOf r.op = .branch) (hop : r.op ∉ branchOpcodes) : Raises r (.invalidBranchOpCode r.op)
  | riTarget (hform : formOf r.op = .ri) (ha : r.a ∉ regCodes) : Raises r (.invalidRegisterAddress r.a)
  | riOpcode (hform : formOf r.op = .ri) (ha : r.a ∈ regCodes) (hop : r.op ∉ riOpcodes) :
      Raises r (.invalidSrcValueOpCode r.op)
  | rrTarget (hform : formOf r.op = .rr) (ha : r.a ∉ regCodes) : Raises r (.invalidRegisterAddress r.a)
  | rrSource (hform : formOf r.op = .rr) (ha : r.a ∈ regCodes) (hb : r.b ∉ regCodes) :
      Raises r (.invalidRegisterAddress r.b)
  | rrOpcode (hform : formOf r.op = .rr) (ha : r.a ∈ regCodes) (hb : r.b ∈ regCodes) (hop : r.op ∉ rrOpcodes) :
      Raises r (.invalidOpCode r.op)

theorem decodeRecord_branch_unlisted {op : Byte} (a b : Byte) (hform : formOf op = .branch) (hop : op ∉ branchOpcodes) :
    decodeRecord ⟨op, a, b⟩ = .error (.invalidBranchOpCode op) := by
  have hnone : dispatchOn 0xFF op branchTable = none := (dispatchOn_full_eq_none_iff op branchTable).2 hop
  simp only [decodeRecord, decodeRecordWith, hform, machineConfig, hnone]

theorem decodeRecord_ri_unlisted {op : Byte} (t : Reg) (b : Byte) (hform : formOf op = .ri) (hop : op ∉ riOpcodes) :
    decodeRecord ⟨op, t.code, b⟩ = .error (.invalidSrcValueOpCode op) := by
  have hnone : dispatchOn 0xFF op riTable = none := (dispatchOn_full_eq_none_iff op riTable).2 hop
  simp only [decodeRecord, decodeRecordWith, hform, Reg.ofCode_code, hnone]

theorem decodeRecord_rr_unlisted {op : Byte} (t s : Reg) (hform : formOf op = .rr) (hop : op ∉ rrOpcodes) :
    decodeRecord ⟨op, t.code, s.code⟩ = .error (.invalidOpCode op) := by
  have hnone : dispatchOn 0xFF op rrTable = none := (dispatchOn_full_eq_none_iff op rrTable).2 hop
  simp only [decodeRecord, decodeRecordWith, hform, Reg.ofCode_code, hnone]

theorem decodeRecord_of_raises {r : Record} {e : DecodeError} (h : Raises r e) : decodeRecord r = .error e := by
  obtain ⟨op, a, b⟩ := r
  cases h with
  | branchOpcode hform hop => exact decodeRecord_branch_unlisted a b hform hop
  | riTarget hform ha => exact decodeRecord_ri_bad_target b hform ((Reg.ofCode_eq_none_iff a).2 ha)
  | riOpcode hform ha hop =>
    obtain ⟨t, rfl⟩ := (mem_regCodes_iff a).1 ha
    exact decodeRecord_ri_unlisted t b hform hop
  | rrTarget hform ha => exact decodeRecord_rr_bad_target b hform ((Reg.ofCode_eq_none_iff a).2 ha)
  | rrSource hform ha hb =>
    obtain ⟨t, rfl⟩ := (mem_regCodes_iff a).1 ha
    exact decodeRecord_rr_bad_source t hform ((Reg.ofCode_eq_none_iff b).2 hb)
  | rrOpcode hform ha hb hop =>
    obtain ⟨t, rfl⟩ := (mem_regCodes_iff a).1 ha
    obtain ⟨s, rfl⟩ := (mem_regCodes_iff b).1 hb
    exact decodeRecord_rr_unlisted t s hform hop

/-- The checks are complete: a record that passes all those of its form is one of the spec's lists (R64, R66). -/
theorem wellFormed_or_exists_raises (r : Record) : r.wellFormed = true ∨ ∃ e, Raises r e := by
  rw [Record.wellFormed_iff]
  cases hform : formOf r.op with
  | branch =>
    by_cases hop : r.op ∈ branchOpcodes
    · exact .inl (.inl hop)
    · exact .inr ⟨_, .branchOpcode hform hop⟩
  | ri =>
    by_cases ha : r.a ∈ regCodes
    · by_cases hop : r.op ∈ riOpcodes
      · exact .inl (.inr (.inl ⟨hop, ha⟩))
      · exact .inr ⟨_, .riOpcode hform ha hop⟩
    · exact .inr ⟨_, .riTarget hform ha⟩
  | rr =>
    by_cases ha : r.a ∈ regCodes
    · by_cases hb : r.b ∈ regCodes
      · by_cases hop : r.op ∈ rrOpcodes
        · exact .inl (.inr (.inr ⟨hop, ha, hb⟩))
        · exact .inr ⟨_, .rrOpcode hform ha hb hop⟩
      · exact .inr ⟨_, .rrSource hform ha hb⟩
    · exact .inr ⟨_, .rrTarget hform ha⟩

/-- Which records the decoder refuses and with which error, said once (R61). -/
theorem decodeRecord_eq_error_iff (r : Record) (e : DecodeError) : decodeRecord r = .error e ↔ Raises r e := by
  refine ⟨fun h => ?_, decodeRecord_of_raises⟩
  obtain hwf | ⟨e', hraises⟩ := wellFormed_or_exists_raises r
  · obtain ⟨i, hi⟩ := (exists_denotes_iff_wellFormed r).2 hwf
    cases (decodeRecord_of_denotes hi).symm.trans h
  · cases (decodeRecord_of_raises hraises).symm.trans h
    exact hraises

/-! ### Where `InvalidProgram` comes from -/

/-- No record raises `InvalidProgram` (R132). -/
theorem decodeRecord_ne_invalidProgram (r : Record) : decodeRecord r ≠ .error .invalidProgram := by
  rw [ne_eq, decodeRecord_eq_error_iff]
  rintro ⟨⟩

/-- Nor does the decoding of whole records: only a stream that ends inside a record reaches that arm. -/
theorem decodeRecords_ne_invalidProgram {bytes : List Byte} (hlen : bytes.length % 3 = 0) :
    decodeRecords bytes ≠ .error .invalidProgram := by
  fun_induction decodeRecords bytes with
  | case1 => simp
  | case2 op a b rest e hrec =>
    rintro ⟨⟩
    exact decodeRecord_ne_invalidProgram _ hrec
  | case3 op a b rest i hrec e hrest ih =>
    rintro ⟨⟩
    rw [List.length_cons, List.length_cons, List.length_cons] at hlen
    exact ih (by omega) hrest
  | case4 => simp
  | case5 bytes hnil hrecord =>
    match bytes with
    | [] => exact absurd rfl hnil
    | [_] | [_, _] => simp at hlen
    | op :: a :: b :: rest => exact absurd rfl (hrecord op a b rest)

end Sys2Proof

namespace Sys2Proof.Machine

/-! ### A step without a valid program -/

/-- The host's step is refused and changes nothing (R154, D15). -/
theorem perform_step_of_invalid {s : State} (h : s.progValid = false) :
    s.perform .step = (s, .refused .noProgram) := by
  simp [State.perform, State.hostStep, step, h]

/-! ### The obligations of the exceptions family -/

/-- Settles O9: each clause is one way for a record to raise. -/
theorem recordErrorPrecedence : Obligations.RecordErrorPrecedence := by
  intro op a b
  simp only [List.contains_eq_mem, decide_eq_false_iff_not, decide_eq_true_eq]
  refine ⟨?_, ?_, ?_, ?_, ?_, ?_⟩
  · exact fun hform hop => decodeRecord_of_raises (.branchOpcode hform hop)
  · exact fun hform ha => decodeRecord_of_raises (.riTarget hform ha)
  · exact fun hform ha hop => decodeRecord_of_raises (.riOpcode hform ha hop)
  · exact fun hform ha => decodeRecord_of_raises (.rrTarget hform ha)
  · exact fun hform ha hb => decodeRecord_of_raises (.rrSource hform ha hb)
  · exact fun hform ha hb hop => decodeRecord_of_raises (.rrOpcode hform ha hb hop)

/-- Settles O12: past the length check only whole records are decoded, and none of them raises it. -/
theorem invalidProgramExactlyOnBadLength : Obligations.InvalidProgramExactlyOnBadLength := by
  intro bytes
  rw [decodeStream_eq]
  split
  next hbad => exact iff_of_true rfl hbad
  next hgood =>
    have hlen : bytes.length % 3 = 0 := by omega
    exact iff_of_false (decodeRecords_ne_invalidProgram hlen) hgood

/-- Settles O15: the failed load raises, and a raise leaves no valid program to step. -/
theorem failedLoadRecordsTheError : Obligations.FailedLoadRecordsTheError := by
  intro s bytes e h
  rw [load_of_error s h]
  exact ⟨raise_progValid s e, raise_errCode s e, raise_errByte s e, fun r => raise_reg s r e,
    perform_step_of_invalid (raise_progValid s e), ⟨rfl, rfl⟩, fun _ => ⟨rfl, rfl, rfl, rfl, rfl, rfl, rfl, rfl⟩⟩

/-- Settles O21: every instruction answers and keeps the status, and a fetch answers only below `len`. -/
theorem executionNeverFaults : Obligations.ExecutionNeverFaults := by
  refine ⟨fun i s => ?_, fun _ _ => fetch_eq_none_of_len_le⟩
  obtain ⟨t, hexec⟩ := exec_answers i s
  obtain ⟨-, -, hcode, hbyte⟩ := exec_sameStore hexec
  exact ⟨t, hexec, hcode, hbyte⟩

end Sys2Proof.Machine
end

section
/-! SUPPORT and PROOFS. Reset, a restart without a reload, and the frame of an instruction (70_reset_and_hazards). -/

namespace Sys2Proof.Machine

/-! ### Reset -/

theorem hostReset_sameStore (s : State) : SameStore s s.hostReset := ⟨rfl, rfl, rfl, rfl⟩

/-- What a reset gives depends on the store and the status only (R150, R151). -/
theorem hostReset_eq_of_sameStore {s s' : State} (h : SameStore s s') : s'.hostReset = s.hostReset := by
  obtain ⟨hprog, hvalid, hcode, hbyte⟩ := h
  rw [State.hostReset, State.hostReset, hprog, hvalid, hcode, hbyte]

/-- After a reset a branch whose condition holds of CR = 0 jumps. -/
theorem exec_branchInstr_hostReset_taken {kind : BranchKind} (hcond : kind.cond 0 = true) (s : State) (a : Byte) :
    ∃ t, exec (kind.instr a) s.hostReset = .next t ∧ Jumps s.hostReset t a.toNat := by
  simpa [exec_branchInstr] using execBranch_next_of_cr (hostReset_reg s .cr) (iff_true_intro hcond) a

/-- After a reset a branch whose condition fails of CR = 0 falls through from index 0 to index 1. -/
theorem exec_branchInstr_hostReset_untaken {kind : BranchKind} (hcond : ¬ kind.cond 0 = true) (s : State) (a : Byte) :
    ∃ t, exec (kind.instr a) s.hostReset = .next t ∧ Jumps s.hostReset t 1 := by
  simpa [exec_branchInstr] using execBranch_next_of_cr (hostReset_reg s .cr) (iff_false_intro hcond) a

/-! ### The store between loads -/

/-- Without a load no sequence of host operations writes the store or the status (R45, R151). -/
theorem performAll_sameStore (s : State) {ops : List HostOp} (h : ∀ op ∈ ops, op.isLoad = false) :
    SameStore s (s.performAll ops) := by
  induction ops generalizing s with
  | nil => exact SameStore.refl s
  | cons op ops ih =>
    obtain ⟨hop, hops⟩ := List.forall_mem_cons.1 h
    exact (perform_sameStore s hop).trans (ih (s.perform op).1 hops)

/-! ### The registers an instruction leaves alone -/

theorem retire_reg_other {t r : Reg} (s : State) (v : Byte) (ht : r ≠ t) (hpc : r ≠ .pc) :
    (s.retire machineConfig t v).reg r = s.reg r := by
  obtain ⟨-, -, hother, -⟩ := retire_retires s t v
  exact hother r ht hpc

/-- An instruction writes no register but its destination and PC (R156). -/
theorem exec_reg_other {i : Instr} {s s' : State} {r : Reg} (hpc : r ≠ .pc) (hdest : destination i ≠ some r)
    (h : exec i s = .next s') : s'.reg r = s.reg r := by
  obtain ⟨t, v, ht, -, hexec⟩ | ⟨-, taken, hexec, -⟩ := exec_cases i s
  · cases hexec.symm.trans h
    have hne : r ≠ t := fun hrt => hdest (hrt ▸ ht)
    exact retire_reg_other s v hne hpc
  · cases hexec.symm.trans h
    rw [reg_nextPc, if_neg hpc]

/-! ### A step without a valid program -/

theorem step_of_invalid {s : State} (h : s.progValid = false) : step s = .refused .noProgram := by
  obtain ⟨-, hstep⟩ | ⟨hvalid, -⟩ | ⟨hvalid, -⟩ := step_cases s
  · exact hstep
  · exact absurd hvalid (by simp [h])
  · exact absurd hvalid (by simp [h])

/-! ### The obligations of the reset and hazards family -/

/-- Settles O4: the store and status are those of the start, and a reset depends on nothing else. -/
theorem restartWithoutReload : Obligations.RestartWithoutReload := by
  intro s ops hops
  have hstore := performAll_sameStore s hops
  exact ⟨hstore, hostReset_eq_of_sameStore hstore⟩

/-- Settles O39, with the two frames of an instruction: its registers, and the store and status. -/
theorem instructionWritesOnlyDestinationAndPc : Obligations.InstructionWritesOnlyDestinationAndPc :=
  fun _ _ _ hexec => ⟨fun _ hpc hdest => exec_reg_other hpc hdest hexec, exec_sameStore hexec⟩

/-- Settles O1: of the four conditional branches only the condition of `BE` holds of CR = 0. -/
theorem resetZeroesEveryRegister : Obligations.ResetZeroesEveryRegister := by
  intro s
  refine ⟨fun r => hostReset_reg s r, fun a => ⟨?_, ?_, ?_, ?_⟩⟩
  · exact exec_branchInstr_hostReset_taken (kind := .be) (by decide) s a
  · exact exec_branchInstr_hostReset_untaken (kind := .bne) (by decide) s a
  · exact exec_branchInstr_hostReset_untaken (kind := .bg) (by decide) s a
  · exact exec_branchInstr_hostReset_untaken (kind := .bl) (by decide) s a

/-- Settles O3: the two operations write disjoint parts of the state. -/
theorem resetKeepsStoreLoadKeepsRegisters : Obligations.ResetKeepsStoreLoadKeepsRegisters :=
  fun s => ⟨hostReset_sameStore s, load_reg s⟩

/-- Settles O18: of the step's three cases only the refusal is without a valid program. -/
theorem stepWithoutProgramIsRefused : Obligations.StepWithoutProgramIsRefused :=
  fun _ hinvalid => ⟨step_of_invalid hinvalid, perform_step_of_invalid hinvalid⟩

end Sys2Proof.Machine
end
